-- ==== Sys2Proof/Word.lean ====
section
/-!
DEFINITION. The words of mmwave-framer: every value is unsigned, bit 0 is the least significant bit (R11).
-/

namespace Sys2Proof

/-- `u8` of R11. -/
abbrev Byte := BitVec 8

/-- `u16` of R11. -/
abbrev Half := BitVec 16

/-- `u32` of R11. -/
abbrev Word := BitVec 32

end Sys2Proof
end

