-- ==== Sys2Proof/Config.lean ====
section
/-!
DEFINITION. The parameters of one instance (R9): the five CRC parameters and the four parameters of the host's
handshake. They are fixed for an instance and no step changes them (R38, R178). State carries them as plain data, so a
statement over every state holds for every choice of them (assumption 8).
-/

namespace Sys2Proof

/-- The five CRC parameters of R82. -/
structure CrcParams where
  poly   : Half
  init   : Half
  refin  : Bool
  refout : Bool
  xorout : Half
  deriving DecidableEq, Repr

/-- The default instance of R9 and R82. PRESUMED: the spec takes it from general knowledge (D8, G1, assumption 8);
unsafe for a claim that names concrete CRC bytes. -/
def CrcParams.modbus : CrcParams :=
  { poly := 0x8005, init := 0xFFFF, refin := true, refout := true, xorout := 0x0000 }

/-- `HS_VALUE_ENC` (R9, R150): the encoding of a handshake value as a payload, as plain data (assumption 10). -/
inductive ValueEnc where
  /-- The default: `[value]` for 0 to 255. -/
  | oneByte
  /-- An encoding written out on finitely many values, a value not listed being outside its range. -/
  | table (rows : List (Int × List Byte))
  /-- Any encoding at all, the one `Config.freeValueEnc` stands for under this number. -/
  | free (k : Nat)
  deriving DecidableEq, Repr

/-- The encodings `ValueEnc.free` names: uninterpreted functions of the value, `none` outside their range, so that every
`int -> byte list` of R9 is one of them (assumption 10). Nothing in Lean can evaluate one or tell anything of it. Safe:
a theorem about it holds for every encoding. -/
opaque Config.freeValueEnc : Nat → Int → Option (List Byte)

/-- `HS_RESEND_ON` (R9, R145). -/
inductive ResendOn where
  | wrongValueAck
  | anyNonMatching
  deriving DecidableEq, Repr

/-- The parameters of R9. `hsMaxSends = none` is the default, unbounded (R147). -/
structure Config where
  crc        : CrcParams
  hsAddr1    : Byte
  hsValueEnc : ValueEnc
  hsMaxSends : Option Nat
  hsResendOn : ResendOn
  deriving DecidableEq, Repr

/-- `HS_ADDR1` of the instance that State.reset describes: OPEN in R9, with no default (D19, N3). A free value: nothing
in Lean can tell which byte it is (assumption 9). Safe: a theorem about it holds for every byte. -/
opaque Config.openHsAddr1 : Byte

/-- The instance State.reset describes: every default R9 gives, and the open `HS_ADDR1` left open. -/
def Config.reference : Config :=
  { crc := CrcParams.modbus
    hsAddr1 := Config.openHsAddr1
    hsValueEnc := .oneByte
    hsMaxSends := none
    hsResendOn := .wrongValueAck }

end Sys2Proof
end

