-- ==== Sys2Proof/Syntax.lean ====
section
/-!
DEFINITION. The instructions: one constructor per row of opcode_table.json (R78), and the three encodings they have,
the command record of the command port (R67), the levels of the sideband inputs (R19) and the key and payload of a
validated packet (R78).
-/

namespace Sys2Proof

/-- A command record on the command port: the 32-bit command word and the data bytes that follow it; COUNT is the
number of data bytes (R67, R70, R88; assumption 1). -/
structure Command where
  word : Word
  data : List Byte
  deriving DecidableEq, Repr

/-- What an instruction is encoded as, by the `format` of its row (R78): `cmd`, `sideband` or `frame_key`. -/
inductive Encoding where
  | command (c : Command)
  | sideband (rst cancel : Bool)
  | packet (key : BitVec 24) (payload : List Byte)
  deriving DecidableEq, Repr

/-- The rows of opcode_table.json. The `cmd` rows carry the operands of R70; the `frame_key` rows carry what their key
and payload condition leave open. -/
inductive Instr where
  /-- CRC16, opcode 1 (R88). -/
  | crc16 (data : List Byte)
  /-- ENCODE, opcode 2 (R93). -/
  | encode (function address1 address2 : Byte) (data : List Byte)
  /-- READ_PACKET, opcode 3 (R99). -/
  | readPacket
  /-- DECODE, opcode 4 (R126). -/
  | decode
  /-- CANCEL, the sideband input `cancel` (R117). -/
  | cancel
  /-- RST, the sideband input `rst` (R174). -/
  | rst
  /-- ENV_UNOCCUPIED: key 0x040305, payload 00 FF FF (R128). -/
  | envUnoccupied
  /-- ENV_OCCUPIED_STATIC: key 0x040305, payload 01 00 FF (R129). -/
  | envOccupiedStatic
  /-- ENV_OCCUPIED_MOVING: key 0x040305, payload 01 01 01 (R130). -/
  | envOccupiedMoving
  /-- ENV_OTHER: key 0x040305, any other payload (R131). -/
  | envOther (payload : List Byte)
  /-- BODY_DATA: key 0x040306, exactly four payload bytes (R132). -/
  | bodyData (p0 p1 p2 p3 : Byte)
  /-- BODY_OTHER_LEN: key 0x040306, a payload of another length (R133). -/
  | bodyOtherLen (payload : List Byte)
  /-- REPORT_OTHER: function 4 at any other address pair (R134). -/
  | reportOther (address1 address2 : Byte) (payload : List Byte)
  /-- SET_PARAM: function 2, the handshake's command (R143); decoded, no event (R134). -/
  | setParam (address1 address2 : Byte) (payload : List Byte)
  /-- SET_PARAM_ACK: function 3, the handshake's acknowledgment (R144); decoded, no event (R134). -/
  | setParamAck (address1 address2 : Byte) (payload : List Byte)
  /-- NON_REPORT: any function other than 2, 3 and 4 (R134). -/
  | nonReport (function address1 address2 : Byte) (payload : List Byte)
  deriving DecidableEq, Repr

end Sys2Proof
end

