-- ==== Sys2Proof/WellFormed.lean ====
section
/-!
DEFINITION. Which instructions the encodings can carry: the length of the data (R70, R95), the length of a packet's
payload (R10), and the payload and key conditions that keep the frame_key rows apart (R78).
-/

namespace Sys2Proof

/-- The largest value of the 16-bit COUNT (R70). -/
def maxCount : Nat := 65535

/-- `MAX_PAYLOAD` (R10). -/
def maxPayload : Nat := 65528

/-- The three payloads at (3, 5) that have a row of their own (R128 to R130). -/
def occupancyPayloads : List (List Byte) :=
  [[0x00, 0xFF, 0xFF], [0x01, 0x00, 0xFF], [0x01, 0x01, 0x01]]

/-- An instruction some encoding stands for, as the rows of the table state their operands. -/
def Instr.WellFormed : Instr → Bool
  | .crc16 data => decide (data.length ≤ maxCount)
  | .encode _ _ _ data => decide (data.length ≤ maxPayload)
  | .readPacket => true
  | .decode => true
  | .cancel => true
  | .rst => true
  | .envUnoccupied => true
  | .envOccupiedStatic => true
  | .envOccupiedMoving => true
  | .envOther p => decide (p.length ≤ maxPayload ∧ p ∉ occupancyPayloads)
  | .bodyData _ _ _ _ => true
  | .bodyOtherLen p => decide (p.length ≤ maxPayload ∧ p.length ≠ 4)
  | .reportOther a1 a2 p =>
    decide (p.length ≤ maxPayload ∧ ¬ (a1 = 3 ∧ a2 = 5) ∧ ¬ (a1 = 3 ∧ a2 = 6))
  | .setParam _ _ p => decide (p.length ≤ maxPayload)
  | .setParamAck _ _ p => decide (p.length ≤ maxPayload)
  | .nonReport f _ _ p => decide (p.length ≤ maxPayload ∧ f ≠ 2 ∧ f ≠ 3 ∧ f ≠ 4)

end Sys2Proof
end

