-- ==== Sys2Proof/Decode.lean ====
section
/-!
DEFINITION. The decoder, total on every encoding and rejecting by name, and after it the encoder, both written from
30_encoding.md (R67 to R70) and from the rows of opcode_table.json (R78). The byte-order helpers stand here too
(R47, R48, R70).
-/

namespace Sys2Proof

/-- Bits [7:0] of a 16-bit value. -/
def byteLo (h : Half) : Byte := h.extractLsb' 0 8

/-- Bits [15:8] of a 16-bit value. -/
def byteHi (h : Half) : Byte := h.extractLsb' 8 8

/-- A field of a 32-bit word: `v` placed with its bit 0 at bit `k` (R11). -/
def field {w : Nat} (v : BitVec w) (k : Nat) : Word := v.setWidth 32 <<< k

/-- The 16-bit value of two bytes sent low byte first (R47, R48, R70). -/
def half (lo hi : Byte) : Half := (hi.setWidth 16 <<< 8) ||| lo.setWidth 16

/-- Why a command record is refused (R69, R70). -/
inductive CommandError where
  /-- OP 0 or 5 to 15 (R68, R69). -/
  | reservedOpcode
  /-- Bits [7:4] of the command word are not 0 (R67, R69). -/
  | reservedBits
  /-- Bits [31:8] are not 0 and the opcode is not ENCODE (R67, R69). -/
  | operandBits
  /-- More data bytes than the 16-bit COUNT can state (R70, D31; assumption 1). -/
  | countTooLarge
  deriving DecidableEq, Repr

/-- Why an encoding stands for no instruction. -/
inductive DecodeError where
  | command (e : CommandError)
  /-- A packet payload longer than a frame can carry (R10). -/
  | payloadTooLong
  /-- No sideband input is raised. -/
  | noInput
  deriving DecidableEq, Repr

/-- The opcode field OP of a command word (R67). -/
def opField (w : Word) : BitVec 4 := w.extractLsb' 0 4

/-- A command record to the instruction it stands for (R67 to R70). -/
def decodeCommand (c : Command) : Except CommandError Instr :=
  if c.word.extractLsb' 4 4 ≠ 0 then .error .reservedBits
  else if opField c.word = 1 then
    if c.word.extractLsb' 8 24 ≠ 0 then .error .operandBits
    else if c.data.length ≤ maxCount then .ok (.crc16 c.data) else .error .countTooLarge
  else if opField c.word = 2 then
    if c.data.length ≤ maxCount then
      .ok (.encode (c.word.extractLsb' 8 8) (c.word.extractLsb' 16 8) (c.word.extractLsb' 24 8) c.data)
    else .error .countTooLarge
  else if opField c.word = 3 then
    if c.word.extractLsb' 8 24 ≠ 0 then .error .operandBits else .ok .readPacket
  else if opField c.word = 4 then
    if c.word.extractLsb' 8 24 ≠ 0 then .error .operandBits else .ok .decode
  else .error .reservedOpcode

/-- The row of the table that a packet at (function 4, 3, 5) stands for (R128 to R131). -/
def decodeEnvironment (p : List Byte) : Instr :=
  if p = [0x00, 0xFF, 0xFF] then .envUnoccupied
  else if p = [0x01, 0x00, 0xFF] then .envOccupiedStatic
  else if p = [0x01, 0x01, 0x01] then .envOccupiedMoving
  else .envOther p

/-- The row of the table that a packet at (function 4, 3, 6) stands for (R132, R133). -/
def decodeBody : List Byte → Instr
  | [p0, p1, p2, p3] => .bodyData p0 p1 p2 p3
  | p => .bodyOtherLen p

/-- The row of the table that a packet's function, addresses and payload stand for (R78). -/
def decodeRow (f a1 a2 : Byte) (p : List Byte) : Instr :=
  if f = 4 then
    if a1 = 3 ∧ a2 = 5 then decodeEnvironment p
    else if a1 = 3 ∧ a2 = 6 then decodeBody p
    else .reportOther a1 a2 p
  else if f = 2 then .setParam a1 a2 p
  else if f = 3 then .setParamAck a1 a2 p
  else .nonReport f a1 a2 p

/-- A packet's key and payload to its row (R78): the key is `function << 16 | address1 << 8 | address2`. -/
def decodePacket (key : BitVec 24) (p : List Byte) : Except DecodeError Instr :=
  if p.length ≤ maxPayload then
    .ok (decodeRow (key.extractLsb' 16 8) (key.extractLsb' 8 8) (key.extractLsb' 0 8) p)
  else .error .payloadTooLong

/-- The raised sideband inputs to the instruction the block runs: `rst` before `cancel` (R101, R164). -/
def decodeSideband (rst cancel : Bool) : Except DecodeError Instr :=
  if rst then .ok .rst else if cancel then .ok .cancel else .error .noInput

/-- The decoder, total on every encoding. -/
def decode : Encoding → Except DecodeError Instr
  | .command c => (decodeCommand c).mapError .command
  | .sideband r c => decodeSideband r c
  | .packet k p => decodePacket k p

/-- The command word of R67: `ADDR2 << 24 | ADDR1 << 16 | FUNCTION << 8 | OP`. -/
def commandWord (op : BitVec 4) (f a1 a2 : Byte) : Word := field a2 24 ||| field a1 16 ||| field f 8 ||| field op 0

/-- The 24-bit key of R78: `function << 16 | address1 << 8 | address2`. -/
def packetKey (f a1 a2 : Byte) : BitVec 24 :=
  (f.setWidth 24 <<< 16) ||| (a1.setWidth 24 <<< 8) ||| a2.setWidth 24

/-- The encoder, written from R67, R68, R78 and the rows of opcode_table.json. -/
def encode : Instr → Encoding
  | .crc16 data => .command ⟨commandWord 1 0 0 0, data⟩
  | .encode f a1 a2 data => .command ⟨commandWord 2 f a1 a2, data⟩
  | .readPacket => .command ⟨commandWord 3 0 0 0, []⟩
  | .decode => .command ⟨commandWord 4 0 0 0, []⟩
  | .cancel => .sideband false true
  | .rst => .sideband true false
  | .envUnoccupied => .packet (packetKey 4 3 5) [0x00, 0xFF, 0xFF]
  | .envOccupiedStatic => .packet (packetKey 4 3 5) [0x01, 0x00, 0xFF]
  | .envOccupiedMoving => .packet (packetKey 4 3 5) [0x01, 0x01, 0x01]
  | .envOther p => .packet (packetKey 4 3 5) p
  | .bodyData p0 p1 p2 p3 => .packet (packetKey 4 3 6) [p0, p1, p2, p3]
  | .bodyOtherLen p => .packet (packetKey 4 3 6) p
  | .reportOther a1 a2 p => .packet (packetKey 4 a1 a2) p
  | .setParam a1 a2 p => .packet (packetKey 2 a1 a2) p
  | .setParamAck a1 a2 p => .packet (packetKey 3 a1 a2) p
  | .nonReport f a1 a2 p => .packet (packetKey f a1 a2) p

/-- Whether COUNT and data follow the command word: for CRC16 and ENCODE (R67). -/
def hasCount (w : Word) : Bool := opField w = 1 || opField w = 2

/-- A 32-bit word as four bytes, low byte first (DESIGN CHOICE, assumption 2). -/
def wordBytes (w : Word) : List Byte :=
  [w.extractLsb' 0 8, w.extractLsb' 8 8, w.extractLsb' 16 8, w.extractLsb' 24 8]

/-- A command record sent as bytes: the word, then for CRC16 and ENCODE the 16-bit COUNT low byte first and COUNT
data bytes (R67, R70). -/
def commandBytes (c : Command) : List Byte :=
  if hasCount c.word then
    wordBytes c.word ++ [byteLo (BitVec.ofNat 16 c.data.length), byteHi (BitVec.ofNat 16 c.data.length)] ++ c.data
  else wordBytes c.word

/-- The first command record of a byte sequence and the bytes after it, `none` while it is not complete (R67, R70). -/
def takeCommand : List Byte → Option (Command × List Byte)
  | b0 :: b1 :: b2 :: b3 :: rest =>
    let w := field b3 24 ||| field b2 16 ||| field b1 8 ||| field b0 0
    if hasCount w then
      match rest with
      | c0 :: c1 :: more =>
        let n := (half c0 c1).toNat
        if n ≤ more.length then some (⟨w, more.take n⟩, more.drop n) else none
      | _ => none
    else some (⟨w, []⟩, rest)
  | _ => none

/-- The instruction at the head of a byte sequence that holds command records one after another. -/
def decodeBytes (bs : List Byte) : Option Instr :=
  match takeCommand bs with
  | some (c, _) => (decodeCommand c).toOption
  | none => none

/-- The instruction the decoder reads from bits numbered as opcode_table.json numbers them: a 32-bit `cmd` row is a
command word whose COUNT, where it has one, is 0; a 24-bit `frame_key` row is a key whose payload is empty. The
sideband rows have no bits. -/
def decodeTableWord (nbits w : Nat) : Option Instr :=
  if nbits = 32 then decodeBytes (wordBytes (BitVec.ofNat 32 w) ++ [0, 0])
  else if nbits = 24 then (decodePacket (BitVec.ofNat 24 w) []).toOption
  else none

end Sys2Proof
end

