-- ==== Sys2Proof/Machine/State.lean ====
section
/-!
DEFINITION. The state, as plain data: the block's record of R15, its input ports, and the two other agents of R7 (the
RX stream and the host) with the list of turns that says who moves next (assumption 5). Faults, refusals, and the
state after power-on (R39, R173).
-/

namespace Sys2Proof.Machine

/-- Status codes of R72; the reserved codes 6 to 15 are never produced. -/
inductive Status where
  | none
  | packetOk
  | checksumMismatch
  | truncated
  | malformedLength
  | cancelled
  deriving DecidableEq, Repr

/-- Event codes of R73; the reserved codes 5 to 15 are never produced. -/
inductive EventCode where
  | none
  | unoccupied
  | occupiedStatic
  | occupiedMoving
  | bodyData
  deriving DecidableEq, Repr

/-- Log record codes of R74; codes 0 and 5 to 255 are never written. -/
inductive LogCode where
  | noiseByte
  | checksumMismatch
  | malformedLength
  | truncated
  deriving DecidableEq, Repr

/-- A log record (R74). -/
structure LogRecord where
  code : LogCode
  a    : Half
  b    : Half
  deriving DecidableEq, Repr

/-- A packet record (R36). -/
structure Packet where
  function : Byte
  address1 : Byte
  address2 : Byte
  length   : Half
  payload  : List Byte
  checksum : Half
  deriving DecidableEq, Repr

/-- A response record (R37). -/
inductive Response where
  | crc (crc : Half)
  | frame (bytes : List Byte)
  | read (status : Status) (packet : Option Packet)
  | decoded (event : EventCode) (bodyBits : Word)
  deriving DecidableEq, Repr

/-- The storage behind `pay_buf`: the cells that do not hold the reset value 0, by rising index (R26, R39). -/
abbrev Memory := List Host.Cell

/-- The state of the block: the record of R15, nothing else. -/
structure Block where
  rxState     : BitVec 4
  busy        : Bool
  curOp       : BitVec 4
  lenReg      : Half
  funcReg     : Byte
  a1Reg       : Byte
  a2Reg       : Byte
  payBuf      : Memory
  payCnt      : Half
  rxAcc       : Half
  crcRxLo     : Byte
  pktValid    : Bool
  lastResult  : Status
  lastCrcCalc : Half
  lastCrcRecv : Half
  respPort    : List Response
  logPort     : List LogRecord
  deriving DecidableEq, Repr

/-- An event as the sink takes it: the event code and `body_bits` (R138). -/
structure Event where
  code     : EventCode
  bodyBits : Word
  deriving DecidableEq, Repr

/-- `config` of run_initialization (R142). -/
structure SensorConfig where
  roomType      : Int
  gearThreshold : Int
  deriving DecidableEq, Repr

/-- The two sensor registers of the handshake (R62, R142). -/
inductive SensorReg where
  | roomType
  | gearThreshold
  deriving DecidableEq, Repr

/-- Results of run_initialization (R142). -/
inductive InitResult where
  | ok
  | timeout
  | streamFailure
  deriving DecidableEq, Repr

/-- The host programs the spec gives (R77, R139, R142, R149); SETPARAM is `send 2`. -/
inductive Program where
  | send (function address1 address2 : Byte) (data : List Byte)
  | readEvent
  | initialization (config : SensorConfig)
  | loop
  | session (config : SensorConfig)
  deriving DecidableEq, Repr

/-- Where the host's program stands. An `Issue` point is about to put a command on the port, a `Wait` point waits for
that command's response. -/
inductive ProgramPoint where
  | stopped
  | sendIssue (function address1 address2 : Byte) (data : List Byte)
  | sendWait
  | eventReadIssue
  | eventReadWait
  | eventDecodeIssue
  | eventDecodeWait
  /-- The label `send` of R143. -/
  | handshakeSend (reg : SensorReg)
  /-- After the ENCODE of SETPARAM, before its WRITE (R77). -/
  | handshakeFrame (reg : SensorReg)
  /-- The label `wait` of R143. -/
  | handshakeRead (reg : SensorReg)
  /-- After the READ of R143. -/
  | handshakeWait (reg : SensorReg)
  | loopReadIssue
  | loopReadWait
  | loopDecodeIssue
  | loopDecodeWait
  deriving DecidableEq, Repr

/-- What the host has read from the block (R137). -/
inductive Observation where
  | response (r : Response)
  | log (r : LogRecord)
  | view (number index : Nat) (value : Word)
  deriving DecidableEq, Repr

/-- The host's side: its program, the TX side of the stream, the sink and what it has read (R137, R138). -/
structure HostSide where
  point      : ProgramPoint
  sensor     : SensorConfig
  thenLoop   : Bool
  sends      : Nat
  initResult : Option InitResult
  tx         : List (List Byte)
  sink       : List Event
  seen       : List Observation
  deriving DecidableEq, Repr

/-- One move of one agent (R7, R137; assumption 5). -/
inductive Turn where
  /-- The block takes its step (R6). -/
  | block
  /-- The host's program takes its step. -/
  | program
  /-- The stream agent appends a byte, or the end mark (R42). -/
  | streamByte (b : Byte)
  | streamEof
  /-- The host puts a command record on the command port (R16). -/
  | command (c : Command)
  /-- The host raises a sideband input (R19). -/
  | raiseCancel
  | raiseRst
  /-- The host reads or writes the register view (R33, R34). -/
  | viewRead (number index : Nat)
  | viewWrite (number : Nat) (value : Word)
  /-- The host takes a record from the response or the log port (R137). -/
  | takeResponse
  | takeLog
  /-- WRITE and SINK of R75. -/
  | write (bytes : List Byte)
  | sink (e : Event)
  /-- The host starts a program. -/
  | start (p : Program)
  deriving DecidableEq, Repr

/-- The whole machine. `config` is the instance's parameters, which no step changes (R38, assumption 8). -/
structure State where
  config  : Config
  block   : Block
  cmdPort : List Command
  cancel  : Bool
  rst     : Bool
  rxBytes : List Byte
  rxEof   : Bool
  host    : HostSide
  turns   : List Turn
  deriving DecidableEq, Repr

/-- Model faults (R162): checks on the model, unreachable from reset by the rules. Each is safe: the model stops. -/
inductive Fault where
  /-- `rx_state` holds 10 to 15 (R22). Raised by every step, and by the RX framer's item step. Safe. -/
  | rxStateUnreachable
  /-- Another invariant of R40 is broken (R162, I19). Raised by every step, and by the RX framer's item step when it
  runs in IDLE. Safe. -/
  | invariantBroken
  deriving DecidableEq, Repr

/-- Refusals (R157): the block, or the host's program, has no meaning for the command. Each is safe: the model stops. -/
inductive Refusal where
  /-- An instruction that has no meaning yet. Raised by exec alone. Safe. -/
  | notModelled (mnemonic : String)
  /-- A command record the decoder rejects, with its reason: a reserved opcode, reserved bits or operand bits that are
  not 0 (R69), or more data than COUNT can state (R70). Raised when the block takes it. Safe. -/
  | commandRefused (reason : CommandError)
  /-- ENCODE with more than 65528 data bytes (R95 (d)). Raised by ENCODE. Safe. -/
  | encodeTooLong
  /-- A write to the register view (R34). Raised by the host's turn. Safe. -/
  | viewWrite
  /-- A read of a register-view number above 15 (R34). Raised by the host's turn. Safe. -/
  | viewNumber
  /-- A read of PAYLOAD with an index above 65527 (R33, assumption 18). Raised by the host's turn. Safe. -/
  | viewIndex
  /-- A handshake value outside the range of HS_VALUE_ENC (R150). Raised by the host's program. Safe. -/
  | handshakeValue
  deriving DecidableEq, Repr

/-- The outcome of a meaning or a step. -/
abbrev Result := Host.Outcome State Fault Refusal

/-- The block at reset (R39): all zero but `rx_acc`, which is CRC_INIT; ports empty. -/
def Block.reset (p : CrcParams) : Block :=
  { rxState := 0, busy := false, curOp := 0, lenReg := 0, funcReg := 0, a1Reg := 0, a2Reg := 0
    payBuf := [], payCnt := 0, rxAcc := p.init, crcRxLo := 0, pktValid := false, lastResult := .none
    lastCrcCalc := 0, lastCrcRecv := 0, respPort := [], logPort := [] }

/-- The host before it has done anything (assumption 19). -/
def HostSide.fresh : HostSide :=
  { point := .stopped, sensor := ⟨0, 0⟩, thenLoop := false, sends := 0, initResult := none
    tx := [], sink := [], seen := [] }

/-- Power-on (R173) of an instance with parameters `c`: nothing on the ports, nothing in the stream (assumption 19). -/
def State.resetWith (c : Config) : State :=
  { config := c, block := Block.reset c.crc, cmdPort := [], cancel := false, rst := false
    rxBytes := [], rxEof := false, host := HostSide.fresh, turns := [] }

/-- The machine right after reset, with the parameters of R9 at their defaults and the open one left open. -/
def State.reset : State := State.resetWith Config.reference

end Sys2Proof.Machine
end

