-- ==== Sys2Proof/Machine/Ops.lean ====
section
/-!
DEFINITION. The named operations on the payload buffer, the RX stream, the ports and the registers: reading and
writing `pay_buf`, StreamRead, Log, Respond (R12), and what ends a READ_PACKET (`finish`, R103), which is the one shared
operation for taking a condition (R153, R165). There is no return from a condition to model: after `finish` the block is
IDLE and takes the next command (R166).
-/

namespace Sys2Proof.Machine

/-- What a byte of `pay_buf` that no cell lists reads as: its reset value (R39). -/
def payFill : Byte := 0

/-- The number of bytes of `pay_buf` (R26). -/
def paySize : Nat := 65528

/-- The byte of `pay_buf` at an index. -/
def Memory.read : Memory → Nat → Byte
  | [], _ => payFill
  | (a, b) :: m, k => if a = k then b else Memory.read m k

/-- `pay_buf[k] <- v`, keeping the canonical form (assumption 15). -/
def Memory.write : Memory → Nat → Byte → Memory
  | [], k, v => if v = payFill then [] else [(k, v)]
  | (a, b) :: m, k, v =>
    if k < a then (if v = payFill then (a, b) :: m else (k, v) :: (a, b) :: m)
    else if k = a then (if v = payFill then m else (k, v) :: m)
    else (a, b) :: Memory.write m k v

/-- The canonical form: indices rising and below 65528, and no cell equal to what an unlisted byte reads as. -/
abbrev Memory.wf (m : Memory) : Prop :=
  m.Pairwise (fun x y => x.1 < y.1) ∧ ∀ c ∈ m, c.1 < paySize ∧ c.2 ≠ payFill

/-- `pay_buf[start .. start + n - 1]`. -/
def Memory.slice (m : Memory) : Nat → Nat → List Byte
  | _, 0 => []
  | start, n + 1 => Memory.read m start :: Memory.slice m (start + 1) n

/-- The payload length a length field states: `length - 7` (R8). -/
def payloadLength (len : Half) : Nat := len.toNat - 7

/-- The payload in the packet registers, `pay_buf[0 .. len_reg - 8]` (R123, R126). -/
def Block.payload (b : Block) : List Byte := Memory.slice b.payBuf 0 (payloadLength b.lenReg)

/-- The packet in the packet registers (R123). -/
def Block.packet (b : Block) : Packet :=
  { function := b.funcReg, address1 := b.a1Reg, address2 := b.a2Reg, length := b.lenReg
    payload := b.payload, checksum := b.lastCrcRecv }

/-- Respond (R12): a record on the response port. -/
def Block.respond (b : Block) (r : Response) : Block := { b with respPort := b.respPort ++ [r] }

/-- Log (R12): a record on the log port, which never refuses and never drops one (R18). -/
def Block.log (b : Block) (r : LogRecord) : Block := { b with logPort := b.logPort ++ [r] }

/-- `finish(status)` (R103): what ends a READ_PACKET, and all that a condition changes (R165). -/
def Block.finish (b : Block) (st : Status) : Block :=
  Block.respond { b with lastResult := st, rxState := 0, busy := false, curOp := 0 }
    (.read st (if st = .packetOk then some b.packet else none))

/-- The machine with another block record. -/
def State.setBlock (s : State) (b : Block) : State := { s with block := b }

/-- A one-step command: its response and nothing else (R32, R52). -/
def State.respond (s : State) (r : Response) : State := s.setBlock (s.block.respond r)

/-- What StreamRead finds (R12): a byte, the sticky end, or an empty stream that has not ended. -/
inductive StreamItem where
  | byte (b : Byte)
  | eof
  | nothing
  deriving DecidableEq, Repr

/-- StreamRead (R12, R42, R43): the item at the head of the RX stream and the machine with that byte removed; the end
mark is not removed. -/
def State.streamRead (s : State) : StreamItem × State :=
  match s.rxBytes with
  | b :: rest => (.byte b, { s with rxBytes := rest })
  | [] => (if s.rxEof then .eof else .nothing, s)

/-- The stream agent appends a byte; after the end it appends nothing (R42, assumption 17). -/
def State.appendByte (s : State) (b : Byte) : State :=
  if s.rxEof then s else { s with rxBytes := s.rxBytes ++ [b] }

/-- The stream agent appends the end mark (R42). -/
def State.appendEof (s : State) : State := { s with rxEof := true }

/-- The host puts a command record on the command port, where it waits until the block takes it (R16, R182). The spec
gives the port no capacity; here it is an unbounded first-in first-out queue (DESIGN CHOICE, assumption 28). -/
def State.putCommand (s : State) (c : Command) : State := { s with cmdPort := s.cmdPort ++ [c] }

/-- The machine with another host side. -/
def State.setHost (s : State) (h : HostSide) : State := { s with host := h }

end Sys2Proof.Machine
end

