-- ==== Sys2Proof/Machine/Operands.lean ====
section
/-!
DEFINITION. Operand and frame assembly: the header, the covered bytes and the whole frame of R57, and a frame's packet.
The byte orders are those of R47 to R49.
-/

namespace Sys2Proof.Machine

/-- `SYNC` (R8). -/
def sync : Byte := 0x55

/-- The length field of a frame with an N-byte payload: N + 7 (R58). -/
def frameLength (n : Nat) : Half := BitVec.ofNat 16 (n + 7)

/-- The six header bytes (R57, C1). -/
def frameHeader (len : Half) (f a1 a2 : Byte) : List Byte := [sync, byteLo len, byteHi len, f, a1, a2]

/-- A frame: header, payload, and the checksum low byte first (R57). -/
def frameBytes (len : Half) (f a1 a2 : Byte) (payload : List Byte) (crc : Half) : List Byte :=
  frameHeader len f a1 a2 ++ payload ++ [byteLo crc, byteHi crc]

/-- A packet record's serialised form, the frame it was received as (R71, R123). -/
def Packet.frame (p : Packet) : List Byte :=
  frameBytes p.length p.function p.address1 p.address2 p.payload p.checksum

/-- The 32-bit pattern of four payload bytes, payload byte 0 in bits [7:0] (R49, R132). -/
def bodyBits (p0 p1 p2 p3 : Byte) : Word :=
  field p0 0 ||| field p1 8 ||| field p2 16 ||| field p3 24

/-- The command record of an opcode and its operands (R67). -/
def commandRecord (op : BitVec 4) (f a1 a2 : Byte) (data : List Byte) : Command := ⟨commandWord op f a1 a2, data⟩

end Sys2Proof.Machine
end

