-- ==== Sys2Proof/Machine/Flags.lean ====
section
/-!
DEFINITION. The code numbers (R72 to R74), the framer's states (R21), the invariants of R40 that every step checks
(R162), and the response word (R71). No instruction computes an arithmetic flag; the flags are `busy`, `pkt_valid` and
`last_result` (R32).
-/

namespace Sys2Proof.Machine

/-- Status code numbers (R72). -/
def Status.code : Status → BitVec 4
  | .none => 0
  | .packetOk => 1
  | .checksumMismatch => 2
  | .truncated => 3
  | .malformedLength => 4
  | .cancelled => 5

/-- Event code numbers (R73). -/
def EventCode.code : EventCode → BitVec 4
  | .none => 0
  | .unoccupied => 1
  | .occupiedStatic => 2
  | .occupiedMoving => 3
  | .bodyData => 4

/-- Log code numbers (R74). -/
def LogCode.code : LogCode → Byte
  | .noiseByte => 1
  | .checksumMismatch => 2
  | .malformedLength => 3
  | .truncated => 4

/-- The named values of `rx_state` (R21). -/
inductive RxPhase where
  | idle
  | hunt
  | lenLo
  | lenHi
  | func
  | addr1
  | addr2
  | data
  | crcLo
  | crcHi
  deriving DecidableEq, Repr

/-- The encoding of `rx_state` (R21). -/
def RxPhase.code : RxPhase → BitVec 4
  | .idle => 0
  | .hunt => 1
  | .lenLo => 2
  | .lenHi => 3
  | .func => 4
  | .addr1 => 5
  | .addr2 => 6
  | .data => 7
  | .crcLo => 8
  | .crcHi => 9

/-- The state a value of `rx_state` names; values 10 to 15 name none (R22). -/
def rxPhase (v : BitVec 4) : Option RxPhase :=
  match v.toNat with
  | 0 => some .idle
  | 1 => some .hunt
  | 2 => some .lenLo
  | 3 => some .lenHi
  | 4 => some .func
  | 5 => some .addr1
  | 6 => some .addr2
  | 7 => some .data
  | 8 => some .crcLo
  | 9 => some .crcHi
  | _ => none

/-- The invariants of R40, all but `rx_state ∈ 0..9`. -/
abbrev Block.Coherent (b : Block) : Prop :=
  (b.busy = true ↔ b.rxState ≠ RxPhase.idle.code) ∧
  (b.busy = true → b.curOp = 3) ∧
  (4 ≤ b.rxState.toNat ∧ b.rxState.toNat ≤ 9 → 7 ≤ b.lenReg.toNat) ∧
  (b.rxState = RxPhase.data.code → b.payCnt.toNat < payloadLength b.lenReg) ∧
  (b.rxState = RxPhase.crcLo.code ∨ b.rxState = RxPhase.crcHi.code → b.payCnt.toNat = payloadLength b.lenReg) ∧
  (b.pktValid = true → b.rxState = RxPhase.idle.code)

/-- The model fault a block record shows, if any (R22, R162; assumption 7). -/
def Block.modelFault (b : Block) : Option Fault :=
  if 9 < b.rxState.toNat then some .rxStateUnreachable
  else if b.Coherent then none
  else some .invariantBroken

/-- The opcode field of a response word: the command's opcode (R71). -/
def Response.op : Response → BitVec 4
  | .crc _ => 1
  | .frame _ => 2
  | .read _ _ => 3
  | .decoded _ _ => 4

/-- The response word (R71): OP in [3:0], STATUS in [7:4], EVENT in [11:8], the rest 0. -/
def Response.word (r : Response) : Word :=
  match r with
  | .read st _ => field r.op 0 ||| field st.code 4
  | .decoded ev _ => field r.op 0 ||| field ev.code 8
  | _ => field r.op 0

/-- What follows a response word (R71). -/
inductive ResponseTail where
  | crc (crc : Half)
  | bytes (bs : List Byte)
  | bodyBits (bits : Word)
  | nothing
  deriving DecidableEq, Repr

/-- The result after the response word (R71): the CRC, the frame bytes, the received frame, or `body_bits`. -/
def Response.tail : Response → ResponseTail
  | .crc c => .crc c
  | .frame bs => .bytes bs
  | .read _ (some p) => .bytes p.frame
  | .read _ none => .nothing
  | .decoded _ bits => .bodyBits bits

end Sys2Proof.Machine
end

