-- ==== Sys2Proof/Machine/Crc.lean ====
section
/-!
DEFINITION. The CRC unit (40_crc.md): the byte step, the function CRC16 over any parameters, its two other forms under
the defaults (R86, R87), and the operation CRC16 (R88).
-/

namespace Sys2Proof.Machine

/-- One of the eight rounds of crcStep (R83): shift left, xor the polynomial when bit 15 was 1. -/
def crcRound (poly c : Half) : Half := if c.getLsbD 15 then (c <<< 1) ^^^ poly else c <<< 1

/-- `n` rounds. -/
def crcRounds (poly : Half) : Nat → Half → Half
  | 0, c => c
  | n + 1, c => crcRounds poly n (crcRound poly c)

/-- `reflect8` and `reflect16` where a parameter asks for it (R11, R83, R85). -/
def reflectIf {w : Nat} (refl : Bool) (v : BitVec w) : BitVec w := if refl then v.reverse else v

/-- `crcStep(c, b)` (R83). -/
def crcStep (p : CrcParams) (c : Half) (b : Byte) : Half :=
  crcRounds p.poly 8 (c ^^^ ((reflectIf p.refin b).setWidth 16 <<< 8))

/-- `crcFinal(c)` (R85). -/
def crcFinal (p : CrcParams) (c : Half) : Half := reflectIf p.refout c ^^^ p.xorout

/-- The register after a byte list: crcStep once per byte in list order (R84, R89). -/
def crcFold (p : CrcParams) (c : Half) (bytes : List Byte) : Half := bytes.foldl (crcStep p) c

/-- `CRC16(bytes)` (R84). -/
def crc16 (p : CrcParams) (bytes : List Byte) : Half := crcFinal p (crcFold p p.init bytes)

/-- One round of the reflected form (R86). -/
def reflectedRound (r : Half) : Half := if r.getLsbD 0 then (r >>> 1) ^^^ 0xA001 else r >>> 1

/-- `n` rounds of the reflected form. -/
def reflectedRounds : Nat → Half → Half
  | 0, r => r
  | n + 1, r => reflectedRounds n (reflectedRound r)

/-- One byte of the reflected form (R86). -/
def reflectedStep (r : Half) (b : Byte) : Half := reflectedRounds 8 (r ^^^ b.setWidth 16)

/-- CRC16 under the defaults in the reflected form (R86). -/
def crc16Reflected (bytes : List Byte) : Half := bytes.foldl reflectedStep 0xFFFF

/-- The table entry `T[i]` (R87). -/
def crcTable (i : Byte) : Half := reflectedRounds 8 (i.setWidth 16)

/-- One byte of the table form (R87). -/
def tableStep (r : Half) (b : Byte) : Half := (r >>> 8) ^^^ crcTable (byteLo r ^^^ b)

/-- CRC16 under the defaults in the table form (R87). -/
def crc16Table (bytes : List Byte) : Half := bytes.foldl tableStep 0xFFFF

/-- CRC16, opcode 1 (R88). -/
def execCrc16 (data : List Byte) (s : State) : Result := .next (s.respond (.crc (crc16 s.config.crc data)))

end Sys2Proof.Machine
end

