-- ==== Sys2Proof/Machine/TxFramer.lean ====
section
/-!
DEFINITION. The TX framer (41_tx_framer.md): the frame ENCODE builds, and the operation.
-/

namespace Sys2Proof.Machine

/-- The frame of R94. -/
def encodeFrame (p : CrcParams) (f a1 a2 : Byte) (data : List Byte) : List Byte :=
  let len := frameLength data.length
  frameBytes len f a1 a2 data (crc16 p (frameHeader len f a1 a2 ++ data))

/-- ENCODE, opcode 2 (R93, R94); more than 65528 data bytes are refused (R95 (d)). -/
def execEncode (f a1 a2 : Byte) (data : List Byte) (s : State) : Result :=
  if data.length ≤ maxPayload then .next (s.respond (.frame (encodeFrame s.config.crc f a1 a2 data)))
  else .refused .encodeTooLong

end Sys2Proof.Machine
end

