-- ==== Sys2Proof/Machine/RxFramer.lean ====
section
/-!
DEFINITION. The RX framer (42_rx_framer.md): READ_PACKET is taken in one step (R100) and then takes one stream item per
step, by the rule of the state it stands in (R104 to R116); CANCEL ends it (R117).
-/

namespace Sys2Proof.Machine

/-- READ_PACKET, opcode 3: the step that takes it (R100). -/
def execReadPacket (s : State) : Result :=
  .next (s.setBlock
    { s.block with
      busy := true, curOp := 3, pktValid := false, payCnt := 0, rxState := RxPhase.hunt.code })

/-- HUNT (R104, R105): a sync byte restarts the CRC, any other byte is logged as noise. -/
def rxHunt (p : CrcParams) (b : Block) (x : Byte) : Block :=
  if x = sync then { b with rxAcc := crcStep p p.init x, rxState := RxPhase.lenLo.code }
  else { b with rxState := RxPhase.hunt.code }.log ⟨.noiseByte, x.setWidth 16, 0⟩

/-- LEN_LO (R106). -/
def rxLenLo (p : CrcParams) (b : Block) (x : Byte) : Block :=
  { b with
    lenReg := half x (byteHi b.lenReg), rxAcc := crcStep p b.rxAcc x, rxState := RxPhase.lenHi.code }

/-- LEN_HI (R107): a length below 7 ends the read. -/
def rxLenHi (p : CrcParams) (b : Block) (x : Byte) : Block :=
  let len := half (byteLo b.lenReg) x
  let b' := { b with lenReg := len, rxAcc := crcStep p b.rxAcc x }
  if len.toNat < 7 then (b'.log ⟨.malformedLength, len, 0⟩).finish .malformedLength
  else { b' with rxState := RxPhase.func.code }

/-- FUNC (R108). -/
def rxFunc (p : CrcParams) (b : Block) (x : Byte) : Block :=
  { b with funcReg := x, rxAcc := crcStep p b.rxAcc x, rxState := RxPhase.addr1.code }

/-- ADDR1 (R109). -/
def rxAddr1 (p : CrcParams) (b : Block) (x : Byte) : Block :=
  { b with a1Reg := x, rxAcc := crcStep p b.rxAcc x, rxState := RxPhase.addr2.code }

/-- ADDR2 (R110): with length 7 the payload is empty. -/
def rxAddr2 (p : CrcParams) (b : Block) (x : Byte) : Block :=
  { b with
    a2Reg := x, rxAcc := crcStep p b.rxAcc x, payCnt := 0
    rxState := if b.lenReg = 7 then RxPhase.crcLo.code else RxPhase.data.code }

/-- DATA (R111). -/
def rxData (p : CrcParams) (b : Block) (x : Byte) : Block :=
  { b with
    payBuf := Memory.write b.payBuf b.payCnt.toNat x, rxAcc := crcStep p b.rxAcc x, payCnt := b.payCnt + 1
    rxState := if b.payCnt + 1 = b.lenReg - 7 then RxPhase.crcLo.code else RxPhase.data.code }

/-- CRC_LO (R112). -/
def rxCrcLo (b : Block) (x : Byte) : Block := { b with crcRxLo := x, rxState := RxPhase.crcHi.code }

/-- CRC_HI (R113 to R115): compare, and end the read with the packet or with a mismatch. -/
def rxCrcHi (p : CrcParams) (b : Block) (x : Byte) : Block :=
  let recv := half b.crcRxLo x
  let crc := crcFinal p b.rxAcc
  let b' := { b with lastCrcCalc := crc, lastCrcRecv := recv }
  if crc = recv then { b' with pktValid := true }.finish .packetOk
  else (b'.log ⟨.checksumMismatch, crc, recv⟩).finish .checksumMismatch

/-- The end of the stream in any state but IDLE (R116). -/
def rxEnd (b : Block) : Block :=
  (b.log ⟨.truncated, b.rxState.setWidth 16, b.payCnt⟩).finish .truncated

/-- A byte in a state of the framer (R102); in IDLE no byte is read. -/
def rxByte (p : CrcParams) (phase : RxPhase) (b : Block) (x : Byte) : Block :=
  match phase with
  | .idle => b
  | .hunt => rxHunt p b x
  | .lenLo => rxLenLo p b x
  | .lenHi => rxLenHi p b x
  | .func => rxFunc p b x
  | .addr1 => rxAddr1 p b x
  | .addr2 => rxAddr2 p b x
  | .data => rxData p b x
  | .crcLo => rxCrcLo b x
  | .crcHi => rxCrcHi p b x

/-- One step of a running READ_PACKET with no sideband input raised (R101 (3) and (4)): it holds on an empty stream
that has not ended (R46), else it takes exactly one item. -/
def rxItem (s : State) : Result :=
  match rxPhase s.block.rxState with
  | none => .fault .rxStateUnreachable
  | some .idle => .fault .invariantBroken
  | some phase =>
    match s.streamRead with
    | (.byte x, s') => .next (s'.setBlock (rxByte s.config.crc phase s.block x))
    | (.eof, s') => .next (s'.setBlock (rxEnd s.block))
    | (.nothing, _) => .next s

/-- CANCEL (R117, R160): it ends a running READ_PACKET and reads no item; with `busy = 0` it has no effect. -/
def execCancel (s : State) : Result :=
  .next (if s.block.busy then s.setBlock (s.block.finish .cancelled) else s)

end Sys2Proof.Machine
end

