-- ==== Sys2Proof/Machine/PayloadDecoder.lean ====
section
/-!
DEFINITION. The payload decoder (43_decoder.md): the pure decision table of R127, the operation DECODE (R126), the
rows of the table that give an event or none (R128 to R134), and the value a sink reads in `body_bits` (R135). The two
rows the handshake uses, SET_PARAM and SET_PARAM_ACK, are in HostPrograms.lean.
-/

namespace Sys2Proof.Machine

/-- `decodeEvent(function, address1, address2, payload)` (R127). -/
def decodeEvent (f a1 a2 : Byte) (p : List Byte) : EventCode × Word :=
  if f ≠ 4 then (.none, 0)
  else if a1 = 3 ∧ a2 = 5 then
    if p = [0x00, 0xFF, 0xFF] then (.unoccupied, 0)
    else if p = [0x01, 0x00, 0xFF] then (.occupiedStatic, 0)
    else if p = [0x01, 0x01, 0x01] then (.occupiedMoving, 0)
    else (.none, 0)
  else if a1 = 3 ∧ a2 = 6 then
    match p with
    | [p0, p1, p2, p3] => (.bodyData, bodyBits p0 p1 p2 p3)
    | _ => (.none, 0)
  else (.none, 0)

/-- DECODE's response: an event code and `body_bits` (R37, R126). -/
def State.answerEvent (s : State) (ev : EventCode) (bits : Word) : State := s.respond (.decoded ev bits)

/-- DECODE, opcode 4 (R126): with no validated packet in the registers the answer is NONE. -/
def execDecode (s : State) : Result :=
  if s.block.pktValid then
    .next (s.answerEvent
      (decodeEvent s.block.funcReg s.block.a1Reg s.block.a2Reg s.block.payload).1
      (decodeEvent s.block.funcReg s.block.a1Reg s.block.a2Reg s.block.payload).2)
  else .next (s.answerEvent .none 0)

/-- ENV_UNOCCUPIED (R128): the decoder's answer for a validated packet of this row. -/
def execEnvUnoccupied (s : State) : Result := .next (s.answerEvent .unoccupied 0)

/-- ENV_OCCUPIED_STATIC (R129). -/
def execEnvOccupiedStatic (s : State) : Result := .next (s.answerEvent .occupiedStatic 0)

/-- ENV_OCCUPIED_MOVING (R130). -/
def execEnvOccupiedMoving (s : State) : Result := .next (s.answerEvent .occupiedMoving 0)

/-- ENV_OTHER (R131): no event, whatever the payload. -/
def execEnvOther (_p : List Byte) (s : State) : Result := .next (s.answerEvent .none 0)

/-- BODY_DATA (R132): the four bytes pass through unchanged as `body_bits`. -/
def execBodyData (p0 p1 p2 p3 : Byte) (s : State) : Result :=
  .next (s.answerEvent .bodyData (bodyBits p0 p1 p2 p3))

/-- BODY_OTHER_LEN (R133). -/
def execBodyOtherLen (_p : List Byte) (s : State) : Result := .next (s.answerEvent .none 0)

/-- REPORT_OTHER (R134). -/
def execReportOther (_a1 _a2 : Byte) (_p : List Byte) (s : State) : Result := .next (s.answerEvent .none 0)

/-- NON_REPORT (R134): a legal packet, no event. -/
def execNonReport (_f _a1 _a2 : Byte) (_p : List Byte) (s : State) : Result := .next (s.answerEvent .none 0)

/-- What a sink reads in `body_bits` (R135): a finite number `(-1)^negative × mantissa × 2^exponent`, an infinity, or a
NaN. -/
inductive BodyValue where
  | finite (negative : Bool) (mantissa : Nat) (exponent : Int)
  | infinity (negative : Bool)
  | nan
  deriving DecidableEq, Repr

/-- The value of `body_bits` (R135; the format is the source's, the formula the spec's from general knowledge). -/
def bodyValue (bits : Word) : BodyValue :=
  let s := bits.getLsbD 31
  let e := (bits.extractLsb' 23 8).toNat
  let m := (bits.extractLsb' 0 23).toNat
  if e = 255 then (if m = 0 then .infinity s else .nan)
  else if e = 0 then .finite s m (-149)
  else .finite s (2 ^ 23 + m) (e - 150)

/-- The rational number a finite value stands for. -/
def BodyValue.toRat : BodyValue → Option Rat
  | .finite s m e => some ((if s then -1 else 1) * m * (2 : Rat) ^ e)
  | .infinity _ => none
  | .nan => none

end Sys2Proof.Machine
end

