-- ==== Sys2Proof/Machine/Reset.lean ====
section
/-!
DEFINITION. Reset by the `rst` input (70_reset_and_hazards.md R173 to R175).
-/

namespace Sys2Proof.Machine

/-- RST (R174, R175): every element of the block takes its reset value and the ports are emptied; the RX stream, the
commands still on the command port and the parameters are not touched; no response. -/
def execRst (s : State) : Result := .next (s.setBlock (Block.reset s.config.crc))

end Sys2Proof.Machine
end

