-- ==== Sys2Proof/Machine/View.lean ====
section
/-!
DEFINITION. The register view (R33, R34): read-only, 32 bits, unlisted bits and numbers 7 to 15 read as 0.
-/

namespace Sys2Proof.Machine

/-- STATUS (R33): BUSY [0], PKT_VALID [1], RX_STATE [5:2], LAST_RESULT [9:6], CUR_OP [13:10]. -/
def Block.statusWord (b : Block) : Word :=
  field (BitVec.ofBool b.busy) 0 ||| field (BitVec.ofBool b.pktValid) 1 ||| field b.rxState 2 |||
    field b.lastResult.code 6 ||| field b.curOp 10

/-- The register with number `n`; `i` is the index given with a read of PAYLOAD (R33). -/
def Block.view (p : CrcParams) (b : Block) (n i : Nat) : Word :=
  match n with
  | 0 => b.statusWord
  | 1 => field b.lenReg 0
  | 2 => field b.funcReg 0 ||| field b.a1Reg 8 ||| field b.a2Reg 16
  | 3 => field (crcFinal p b.rxAcc) 0 ||| field b.crcRxLo 16
  | 4 => field b.payCnt 0
  | 5 => field b.lastCrcCalc 0 ||| field b.lastCrcRecv 16
  | 6 => field (Memory.read b.payBuf i) 0
  | _ => 0

/-- The host reads the register view (R34): no side effect on the block. A number above 15 is refused; so is an index
of PAYLOAD above 65527, for which the spec gives no byte (assumption 18). -/
def viewRead (n i : Nat) (s : State) : Result :=
  if 15 < n then .refused .viewNumber
  else if n = 6 ∧ paySize ≤ i then .refused .viewIndex
  else .next (s.setHost
    { s.host with seen := s.host.seen ++ [.view n i (s.block.view s.config.crc n i)] })

end Sys2Proof.Machine
end

