-- ==== Sys2Proof/Machine/HostPrograms.lean ====
section
/-!
DEFINITION. The host's side of the handshake and of the programs (44_host_sequences.md): values and acknowledgments
(R144, R150), issuing a command and taking its response, what an acknowledgment does (R143, R145, R146), starting a
program, and the two frame_key rows the handshake uses, SET_PARAM (R143) and SET_PARAM_ACK (R144).
-/

namespace Sys2Proof.Machine

/-- `HS_VALUE_ENC(value)`; `none` is a value outside its range (R150). -/
def encodeValue : ValueEnc → Int → Option (List Byte)
  | .oneByte, v => if 0 ≤ v ∧ v ≤ 255 then some [BitVec.ofInt 8 v] else none
  | .table rows, v => (rows.find? (fun r => r.1 == v)).map (fun r => r.2)
  | .free k, v => Config.freeValueEnc k v

/-- `address2` of a handshake register (R62, R142). -/
def SensorReg.address2 : SensorReg → Byte
  | .roomType => 0x10
  | .gearThreshold => 0x0C

/-- The value the configuration gives a handshake register (R142). -/
def SensorConfig.value (c : SensorConfig) : SensorReg → Int
  | .roomType => c.roomType
  | .gearThreshold => c.gearThreshold

/-- The `v` of `handshake(a2, value)` for a register (R143). -/
def State.handshakeBytes (s : State) (r : SensorReg) : Option (List Byte) :=
  encodeValue s.config.hsValueEnc (s.host.sensor.value r)

/-- `isAckFor(p, a2)` (R144). -/
def isAckFor (c : Config) (p : Packet) (r : SensorReg) : Bool :=
  p.function = 3 && p.address1 = c.hsAddr1 && p.address2 = r.address2

/-- The host's program goes on at another point. -/
def State.goTo (s : State) (pt : ProgramPoint) : State := s.setHost { s.host with point := pt }

/-- Whether a program of the host runs. -/
def State.programRuns (s : State) : Bool := s.host.point ≠ .stopped

/-- The program puts its command on the command port and goes on to wait for the response. -/
def State.issue (s : State) (c : Command) (pt : ProgramPoint) : State := (s.putCommand c).goTo pt

/-- The host reads every record on the response port, in order. -/
def State.readResponses (s : State) : State :=
  { s with
    block := { s.block with respPort := [] }
    host := { s.host with seen := s.host.seen ++ s.block.respPort.map .response } }

/-- The response to the program's own command: the last one, once the block has taken and finished every command
(assumption 12). With it the state in which the host has read the port. -/
def State.ownResponse (s : State) : Option (Response × State) :=
  if s.cmdPort = [] ∧ s.block.busy = false then
    match s.block.respPort.getLast? with
    | some r => some (r, s.readResponses)
    | none => none
  else none

/-- WRITE (R75, R97): the host writes bytes to the TX side; the RX side is not touched (R45). -/
def State.writeTx (s : State) (bytes : List Byte) : State :=
  s.setHost { s.host with tx := s.host.tx ++ [bytes] }

/-- SINK (R75, R138): the host delivers an event; the sink accepts it at once. -/
def State.deliver (s : State) (e : Event) : State := s.setHost { s.host with sink := s.host.sink ++ [e] }

/-- The host's own SINK: an event's code is not NONE (R138), so a NONE is delivered nowhere. Any other pair is delivered
as it stands, a pair R127 never gives among them (DESIGN CHOICE, assumption 29). -/
def State.sinkEvent (s : State) (e : Event) : State := if e.code = .none then s else s.deliver e

/-- run_initialization returns; in a session run_loop follows only after OK (R149). -/
def State.endInitialization (s : State) (r : InitResult) : State :=
  s.setHost
    { s.host with
      initResult := some r
      point := if r = .ok ∧ s.host.thenLoop = true then .loopReadIssue else .stopped }

/-- A handshake returned OK: the gear threshold follows the room type (R142). -/
def State.registerConfirmed (s : State) (r : SensorReg) : State :=
  match r with
  | .roomType => s.setHost { s.host with sends := 0, point := .handshakeSend .gearThreshold }
  | .gearThreshold => s.endInitialization .ok

/-- A read that was no acknowledgment for the register (R145, R146). -/
def State.notAcknowledged (s : State) (r : SensorReg) : State :=
  s.goTo (match s.config.hsResendOn with
    | .wrongValueAck => .handshakeRead r
    | .anyNonMatching => .handshakeSend r)

/-- An acknowledgment for the register: with the sent value the handshake returns OK, with another it sends again
(R143, R145). -/
def State.acknowledged (s : State) (r : SensorReg) (payload : List Byte) : State :=
  if s.handshakeBytes r = some payload then s.registerConfirmed r else s.goTo (.handshakeSend r)

/-- The rest of SETPARAM, when ENCODE's frame is there (R77, R143): WRITE it, count the send, and wait. -/
def State.frameSent (s : State) (r : SensorReg) (bytes : List Byte) : State :=
  s.setHost
    { s.host with tx := s.host.tx ++ [bytes], sends := s.host.sends + 1, point := .handshakeRead r }

/-- SET_PARAM. At the handshake's `send` point it is the handshake's command (R143): SETPARAM, that is ENCODE 2 put on
the command port, its frame to be written when the response comes (R77, frameSent). Anywhere else it is a function-2
packet in the packet registers, which the decoder answers with no event (R134); assumption 13. -/
def execSetParam (a1 a2 : Byte) (payload : List Byte) (s : State) : Result :=
  match s.host.point with
  | .handshakeSend r =>
    .next (s.issue (commandRecord 2 2 a1 a2 payload) (.handshakeFrame r))
  | _ => .next (s.answerEvent .none 0)

/-- SET_PARAM_ACK. At the handshake's `wait` point it is matched by isAckFor (R143, R144). Anywhere else it is a
function-3 packet in the packet registers, which the decoder answers with no event (R134); assumption 13. -/
def execSetParamAck (a1 a2 : Byte) (payload : List Byte) (s : State) : Result :=
  match s.host.point with
  | .handshakeWait r =>
    if a1 = s.config.hsAddr1 ∧ a2 = r.address2 then .next (s.acknowledged r payload)
    else .next (s.notAcknowledged r)
  | _ => .next (s.answerEvent .none 0)

/-- Where a program starts (R77, R139, R142, R149). A host whose program has stopped may start any program, run_loop
alone among them, whatever an earlier run_initialization returned (DESIGN CHOICE, assumption 30). -/
def State.startProgram (s : State) (p : Program) : State :=
  match p with
  | .send f a1 a2 data => s.goTo (.sendIssue f a1 a2 data)
  | .readEvent => s.goTo .eventReadIssue
  | .loop => s.goTo .loopReadIssue
  | .initialization c =>
    s.setHost
      { s.host with
        sensor := c, thenLoop := false, sends := 0, initResult := none, point := .handshakeSend .roomType }
  | .session c =>
    s.setHost
      { s.host with
        sensor := c, thenLoop := true, sends := 0, initResult := none, point := .handshakeSend .roomType }

end Sys2Proof.Machine
end

