-- ==== Sys2Proof/Machine/Dispatch.lean ====
section
/-!
DEFINITION. The dispatch: one arm per constructor of Instr, one direct call of its meaning each.
-/

namespace Sys2Proof.Machine

def exec (i : Instr) (s : State) : Host.Outcome State Fault Refusal :=
  match i with
  | .crc16 data => Sys2Proof.Machine.execCrc16 data s
  | .encode f a1 a2 data => Sys2Proof.Machine.execEncode f a1 a2 data s
  | .readPacket => Sys2Proof.Machine.execReadPacket s
  | .decode => Sys2Proof.Machine.execDecode s
  | .cancel => Sys2Proof.Machine.execCancel s
  | .rst => Sys2Proof.Machine.execRst s
  | .envUnoccupied => Sys2Proof.Machine.execEnvUnoccupied s
  | .envOccupiedStatic => Sys2Proof.Machine.execEnvOccupiedStatic s
  | .envOccupiedMoving => Sys2Proof.Machine.execEnvOccupiedMoving s
  | .envOther p => Sys2Proof.Machine.execEnvOther p s
  | .bodyData p0 p1 p2 p3 => Sys2Proof.Machine.execBodyData p0 p1 p2 p3 s
  | .bodyOtherLen p => Sys2Proof.Machine.execBodyOtherLen p s
  | .reportOther a1 a2 p => Sys2Proof.Machine.execReportOther a1 a2 p s
  | .setParam a1 a2 p => Sys2Proof.Machine.execSetParam a1 a2 p s
  | .setParamAck a1 a2 p => Sys2Proof.Machine.execSetParamAck a1 a2 p s
  | .nonReport f a1 a2 p => Sys2Proof.Machine.execNonReport f a1 a2 p s

end Sys2Proof.Machine
end

