-- ==== Sys2Proof/Machine/Agents.lean ====
section
/-!
DEFINITION. The moves of the agents of R7: the block's step (R6, R101), taking a command off the command port (R16),
the host's program (R139, R142, R143), and the other moves of the host and the stream agent (R137).
-/

namespace Sys2Proof.Machine

/-- The block, idle, takes the command at the head of the command port, if there is one, and runs the instruction its
record decodes to; a reserved command word is refused (R16, R69). -/
def commandTurn (s : State) : Result :=
  match s.cmdPort with
  | [] => .next s
  | c :: rest =>
    match decodeCommand c with
    | .ok i => exec i { s with cmdPort := rest }
    | .error e => .refused (.commandRefused e)

/-- The machine after the block has sampled its sideband inputs: a raised input acts in one step (R163, assumption 3). -/
def State.lowerInputs (s : State) : State := { s with rst := false, cancel := false }

/-- The block's step: `rst`, then `cancel` while a READ_PACKET runs, then a stream item while one runs (R101, R164),
else a command. -/
def blockTurn (s : State) : Result :=
  match decodeSideband s.rst (s.cancel && s.block.busy) with
  | .ok i => exec i s.lowerInputs
  | .error _ => if s.block.busy then rxItem s.lowerInputs else commandTurn s.lowerInputs

/-- Whether the block has a step (R46, R171): an input is raised, an item is there for a running READ_PACKET, or a
command is there while it is idle. -/
def State.blockEnabled (s : State) : Bool :=
  s.rst || s.cancel ||
    (if s.block.busy then !s.rxBytes.isEmpty || s.rxEof else !s.cmdPort.isEmpty)

/-- A `Wait` point of the program: nothing until its own response is there, then `k`. -/
def onResponse (s : State) (k : Response → State → Result) : Result :=
  match s.ownResponse with
  | none => .next s
  | some (r, s') => k r s'

/-- The command record of READ_PACKET (R68). -/
def readRecord : Command := commandRecord 3 0 0 0 []

/-- The command record of DECODE (R68). -/
def decodeRecord : Command := commandRecord 4 0 0 0 []

/-- The label `send` of R143 for a register: out of range, out of sends, or SET_PARAM. -/
def handshakeSend (r : SensorReg) (s : State) : Result :=
  match s.handshakeBytes r with
  | none => .refused .handshakeValue
  | some v =>
    if s.config.hsMaxSends = some s.host.sends then .next (s.endInitialization .timeout)
    else exec (.setParam s.config.hsAddr1 r.address2 v) s

/-- The read of R143 for a register, its response taken. -/
def handshakeRead (r : SensorReg) (resp : Response) (s : State) : Result :=
  match resp with
  | .read .truncated _ => .next (s.endInitialization .streamFailure)
  | .read .cancelled _ => .next (s.endInitialization .streamFailure)
  | .read .packetOk (some p) =>
    if isAckFor s.config p r then exec (.setParamAck p.address1 p.address2 p.payload) s
    else .next (s.notAcknowledged r)
  | .read _ _ => .next (s.notAcknowledged r)
  | _ => .next s

/-- The read of R139, its response taken. -/
def loopRead (resp : Response) (s : State) : Result :=
  match resp with
  | .read .truncated _ => .next (s.goTo .stopped)
  | .read .cancelled _ => .next (s.goTo .stopped)
  | .read .packetOk _ => .next (s.goTo .loopDecodeIssue)
  | .read _ _ => .next (s.goTo .loopReadIssue)
  | _ => .next s

/-- The decode of R139, its response taken: an event goes to the sink, once. -/
def loopDecode (resp : Response) (s : State) : Result :=
  match resp with
  | .decoded ev bits =>
    if ev = .none then .next (s.goTo .loopReadIssue)
    else .next ((s.deliver ⟨ev, bits⟩).goTo .loopReadIssue)
  | _ => .next s

/-- The host's program takes its step. -/
def programTurn (s : State) : Result :=
  match s.host.point with
  | .stopped => .next s
  | .sendIssue f a1 a2 data => .next (s.issue (commandRecord 2 f a1 a2 data) .sendWait)
  | .sendWait =>
    onResponse s fun resp s' =>
      match resp with
      | .frame bytes => .next ((s'.writeTx bytes).goTo .stopped)
      | _ => .next s'
  | .eventReadIssue => .next (s.issue readRecord .eventReadWait)
  | .eventReadWait =>
    onResponse s fun resp s' =>
      match resp with
      | .read st _ => .next (s'.goTo (if st = .packetOk then .eventDecodeIssue else .stopped))
      | _ => .next s'
  | .eventDecodeIssue => .next (s.issue decodeRecord .eventDecodeWait)
  | .eventDecodeWait =>
    onResponse s fun resp s' =>
      match resp with
      | .decoded _ _ => .next (s'.goTo .stopped)
      | _ => .next s'
  | .handshakeSend r => handshakeSend r s
  | .handshakeFrame r =>
    onResponse s fun resp s' =>
      match resp with
      | .frame bytes => .next (s'.frameSent r bytes)
      | _ => .next s'
  | .handshakeRead r => .next (s.issue readRecord (.handshakeWait r))
  | .handshakeWait r => onResponse s (handshakeRead r)
  | .loopReadIssue => .next (s.issue readRecord .loopReadWait)
  | .loopReadWait => onResponse s loopRead
  | .loopDecodeIssue => .next (s.issue decodeRecord .loopDecodeWait)
  | .loopDecodeWait => onResponse s loopDecode

/-- The host takes the record at the head of the response port. -/
def State.takeResponse (s : State) : State :=
  match s.block.respPort with
  | [] => s
  | r :: rest =>
    { s with
      block := { s.block with respPort := rest }
      host := { s.host with seen := s.host.seen ++ [.response r] } }

/-- The host takes the record at the head of the log port. -/
def State.takeLog (s : State) : State :=
  match s.block.logPort with
  | [] => s
  | r :: rest =>
    { s with
      block := { s.block with logPort := rest }
      host := { s.host with seen := s.host.seen ++ [.log r] } }

/-- A move of the host that its program would make itself: the host is one thread, so while a program runs it makes
none of these (R137, R152; assumption 11). -/
def State.whenFree (s : State) (t : State) : Result := .next (if s.programRuns then s else t)

/-- One move of one agent. -/
def agentTurn (t : Turn) (s : State) : Result :=
  match t with
  | .block => blockTurn s
  | .program => programTurn s
  | .streamByte b => .next (s.appendByte b)
  | .streamEof => .next s.appendEof
  | .command c => s.whenFree (s.putCommand c)
  | .raiseCancel => .next { s with cancel := true }
  | .raiseRst => .next { s with rst := true }
  | .viewRead n i => viewRead n i s
  | .viewWrite _ _ => .refused .viewWrite
  | .takeResponse => s.whenFree s.takeResponse
  | .takeLog => .next s.takeLog
  | .write bytes => s.whenFree (s.writeTx bytes)
  | .sink e => s.whenFree (s.sinkEvent e)
  | .start p => s.whenFree (s.startProgram p)

/-- The move with no turn listed: the block's, if it has a step, else the host program's; when neither has one, nothing
changes (R6, R46; assumptions 4 and 5). -/
def defaultTurn (s : State) : Result := if s.blockEnabled then blockTurn s else programTurn s

/-- Whose move it is: the first turn listed, which the move uses up, else the default. -/
def nextTurn (s : State) : Result :=
  match s.turns with
  | [] => defaultTurn s
  | t :: rest => agentTurn t { s with turns := rest }

/-- A step of the machine: a state no rule reaches is a model fault (R22, R162), any other makes the next move. -/
def stepMachine (s : State) : Result :=
  match s.block.modelFault with
  | some f => .fault f
  | none => nextTurn s

/-- The block brought to where it takes a command in the next step: idle, no input raised, the block's turn. -/
def State.readyForCommand (s : State) : State :=
  { s with
    block := { s.block with rxState := 0, busy := false, curOp := 0 }
    cancel := false, rst := false, turns := .block :: s.turns }

/-- A command record placed at the head of the command port. -/
def State.placeCommand (s : State) (c : Command) : State :=
  { s.readyForCommand with cmdPort := c :: s.cmdPort }

/-- A validated packet with an empty payload placed in the packet registers, and DECODE at the head of the command
port, so that the next step runs that packet's row (assumption 14). -/
def State.placePacket (s : State) (key : BitVec 24) : State :=
  { s.placeCommand decodeRecord with
    block :=
      { s.block with
        rxState := 0, busy := false, curOp := 0, pktValid := true, lenReg := 7
        funcReg := key.extractLsb' 16 8, a1Reg := key.extractLsb' 8 8, a2Reg := key.extractLsb' 0 8 } }

/-- An instruction placed by its table bits: a 24-bit key or a 32-bit command word with no data. -/
def State.placeWord (s : State) (nbits w : Nat) : State :=
  if nbits = 24 then s.placePacket (BitVec.ofNat 24 w) else s.placeCommand ⟨BitVec.ofNat 32 w, []⟩

end Sys2Proof.Machine
end

