-- ==== Sys2Proof/Safety.lean ====
section
/-!
DEFINITION. What counts as a sound state, in the terms the statements use: the register invariants of R23, R26, R29 and
R40, the checksum invariants of R27 and R29, and which points of the host's program are its handshake's.
-/

namespace Sys2Proof.Machine

/-- The frame bytes a running READ_PACKET has absorbed, read back from the registers it wrote them to (R27, R118);
`none` where no frame has begun. -/
def Block.absorbed (b : Block) : Option (List Byte) :=
  match rxPhase b.rxState with
  | some .lenLo => some [sync]
  | some .lenHi => some [sync, byteLo b.lenReg]
  | some .func => some [sync, byteLo b.lenReg, byteHi b.lenReg]
  | some .addr1 => some [sync, byteLo b.lenReg, byteHi b.lenReg, b.funcReg]
  | some .addr2 => some [sync, byteLo b.lenReg, byteHi b.lenReg, b.funcReg, b.a1Reg]
  | some .data =>
    some (frameHeader b.lenReg b.funcReg b.a1Reg b.a2Reg ++ Memory.slice b.payBuf 0 b.payCnt.toNat)
  | some .crcLo => some (frameHeader b.lenReg b.funcReg b.a1Reg b.a2Reg ++ b.payload)
  | some .crcHi => some (frameHeader b.lenReg b.funcReg b.a1Reg b.a2Reg ++ b.payload)
  | _ => none

/-- The register invariants: no model fault (R22, R40), `cur_op` is 0 while nothing runs (R23), the payload buffer is in
its canonical form inside its 65528 bytes (R26), and a valid packet is the last result (R29, R32). -/
abbrev Block.RegisterInv (b : Block) : Prop :=
  b.modelFault = none ∧ (b.busy = false → b.curOp = 0) ∧ b.payBuf.wf ∧
  (b.pktValid = true → b.lastResult = .packetOk)

/-- The checksum invariants: the running CRC is that of the absorbed bytes (R27), and a valid packet's computed checksum
is its transmitted one and the CRC of its covered bytes (R29, R36). -/
def Block.ChecksumInv (p : CrcParams) (b : Block) : Prop :=
  (∀ bytes, b.absorbed = some bytes → b.rxAcc = crcFold p p.init bytes) ∧
  (b.pktValid = true →
    7 ≤ b.lenReg.toNat ∧ b.lastCrcCalc = b.lastCrcRecv ∧
      b.lastCrcCalc = crc16 p (frameHeader b.lenReg b.funcReg b.a1Reg b.a2Reg ++ b.payload))

/-- A point at which SET_PARAM or SET_PARAM_ACK is the handshake's own (assumption 13). -/
def ProgramPoint.handshakes : ProgramPoint → Bool
  | .handshakeSend _ => true
  | .handshakeWait _ => true
  | _ => false

/-- A turn that only a host with no program running takes (assumption 11). -/
def Turn.needsFreeHost : Turn → Bool
  | .command _ => true
  | .takeResponse => true
  | .write _ => true
  | .sink _ => true
  | .start _ => true
  | _ => false

/-- What the host's side is after it starts a program (R77, R139, R142, R149): run_initialization and the session begin
with the room type's handshake, nothing sent; only the session has run_loop follow. -/
def State.Starts (s : State) (p : Program) (h : HostSide) : Prop :=
  match p with
  | .send f a1 a2 data => h = { s.host with point := .sendIssue f a1 a2 data }
  | .readEvent => h = { s.host with point := .eventReadIssue }
  | .loop => h = { s.host with point := .loopReadIssue }
  | .initialization c =>
    h = { s.host with
      sensor := c, thenLoop := false, sends := 0, initResult := none, point := .handshakeSend .roomType }
  | .session c =>
    h = { s.host with
      sensor := c, thenLoop := true, sends := 0, initResult := none, point := .handshakeSend .roomType }

/-- A point of run_loop (R139). -/
def ProgramPoint.inLoop : ProgramPoint → Bool
  | .loopReadIssue => true
  | .loopReadWait => true
  | .loopDecodeIssue => true
  | .loopDecodeWait => true
  | _ => false

/-- A point of the gear-threshold handshake. -/
def ProgramPoint.inGearHandshake : ProgramPoint → Bool
  | .handshakeSend .gearThreshold => true
  | .handshakeFrame .gearThreshold => true
  | .handshakeRead .gearThreshold => true
  | .handshakeWait .gearThreshold => true
  | _ => false

/-- The block is idle, no input is raised, no turn is listed and the state is one the rules reach: its next move takes
the command at the head of the command port. -/
abbrev State.TakesCommand (s : State) : Prop :=
  s.turns = [] ∧ s.rst = false ∧ s.cancel = false ∧ s.block.busy = false ∧ s.block.modelFault = none

/-- A READ_PACKET runs in the given state of the framer and no input is raised: the block's step takes a stream item. -/
abbrev State.Reads (s : State) (phase : RxPhase) : Prop :=
  s.rst = false ∧ s.cancel = false ∧ s.block.busy = true ∧ s.block.rxState = phase.code

end Sys2Proof.Machine
end

