-- ==== Sys2Proof/Certificates/Slice0/Obligations.lean ====
section
/-!
DEFINITION. The statements about this model, each formalising a rule R<n> of spec/ or resting on the sections its
docstring names. A statement about a state or a parameter set holds for every choice of the CRC and HS_* parameters,
since State carries them (R9).
-/

open Sys2Proof Sys2Proof.Machine

/-! ## Encodings -/

/-- Decode and encode agree on every well-formed instruction, every operand at every value its encoding admits
(R67, R68, R70, R78). -/
def Obligations.DecodeEncodeEveryInstr : Prop :=
  ∀ i : Instr, i.WellFormed = true → decode (encode i) = .ok i

/-- A command record that decodes is the encoding of what it decodes to: no bit of the word is dropped (R67, R68). The
record of READ_PACKET or DECODE has no operands, so its data must be empty for this direction (R70, assumption 1). -/
def Obligations.CommandRecordsHaveOneMeaning : Prop :=
  ∀ (c : Command) (i : Instr), decodeCommand c = .ok i → (hasCount c.word = true ∨ c.data = []) →
    encode i = .command c

/-- Every key and payload a frame can carry has exactly one row of the table (R78). -/
def Obligations.PacketsHaveExactlyOneRow : Prop :=
  ∀ (k : BitVec 24) (p : List Byte), p.length ≤ 65528 →
    ∃ i : Instr, (decode (.packet k p) = .ok i ∧ i.WellFormed = true ∧ encode i = .packet k p) ∧
      ∀ j : Instr, j.WellFormed = true → encode j = .packet k p → j = i

/-- R69: a command word is refused exactly when OP is 0 or 5 to 15, bits [7:4] are not 0, or bits [31:8] are not 0 for
an opcode other than ENCODE; there is no hint or custom opcode. The refusal is the step's outcome, so no state is
written and no response is made. -/
def Obligations.ReservedCommandWordsRefused : Prop :=
  ∀ c : Command, c.data.length ≤ 65535 →
    ((∃ e, decodeCommand c = .error e) ↔
      (opField c.word = 0 ∨ 5 ≤ (opField c.word).toNat) ∨ c.word.extractLsb' 4 4 ≠ 0 ∨
        (c.word.extractLsb' 8 24 ≠ 0 ∧ opField c.word ≠ 2)) ∧
    ∀ (s : State) (rest : List Command), s.TakesCommand → s.cmdPort = c :: rest →
      ((opField c.word = 0 ∨ 5 ≤ (opField c.word).toNat) ∨ c.word.extractLsb' 4 4 ≠ 0 ∨
        (c.word.extractLsb' 8 24 ≠ 0 ∧ opField c.word ≠ 2)) →
      ∃ e, step s = .refused (.commandRefused e)

/-- A command record sent as bytes, with anything after it, is read back whole, and what follows is left (R67, R70). The
order of the word's four bytes is the model's choice (assumption 2); COUNT's is R70's. -/
def Obligations.CommandBytesRoundTrip : Prop :=
  ∀ (c : Command) (rest : List Byte), c.data.length ≤ 65535 → (hasCount c.word = true ∨ c.data = []) →
    takeCommand (commandBytes c ++ rest) = some (c, rest)

/-- Words and keys written out from 30_encoding.md and 95_test_vectors.md decode to the instructions they stand for. -/
def Obligations.SpecWordsDecode : Prop :=
  decodeCommand ⟨0x00000001, [0x55]⟩ = .ok (.crc16 [0x55]) ∧
  decodeCommand ⟨0x05030402, [0x01, 0x01, 0x01]⟩ = .ok (.encode 4 3 5 [0x01, 0x01, 0x01]) ∧
  decodeCommand ⟨0x00000003, []⟩ = .ok .readPacket ∧
  decodeCommand ⟨0x00000004, []⟩ = .ok .decode ∧
  decode (.sideband true true) = .ok .rst ∧
  decode (.sideband false true) = .ok .cancel ∧
  decode (.packet 0x040305 [0x01, 0x00, 0xFF]) = .ok .envOccupiedStatic ∧
  decode (.packet 0x040306 [0x00, 0x00, 0x80, 0x3F]) = .ok (.bodyData 0x00 0x00 0x80 0x3F) ∧
  decode (.packet 0x021004 [0x07]) = .ok (.setParam 0x10 0x04 [0x07]) ∧
  decodeTableWord 32 0x10040202 = some (.encode 2 4 0x10 [])

/-! ## The step -/

/-- What a step is: with no turn listed the block moves if it has a step, else the host's program; a listed turn is used
up and its agent makes that move. Every turn has a clause here but the register view's two, which
ViewReadHasNoSideEffect states (R6, R7, R16, R19, R42, R75, R137). The model's choices: the turns and the default
(assumptions 4 and 5), that the turns of a host whose program runs make no move (assumption 11), the capacity of the
command port (assumption 28), the pairs a SINK takes (assumptions 16 and 29) and when a program may start
(assumption 30). -/
def Obligations.StepMakesTheNextMove : Prop :=
  ∀ s : State, s.block.modelFault = none →
    (s.turns = [] → s.blockEnabled = true → step s = blockTurn s) ∧
    (s.turns = [] → s.blockEnabled = false → step s = programTurn s) ∧
    ∀ rest : List Turn,
      (s.turns = .block :: rest → step s = blockTurn { s with turns := rest }) ∧
      (s.turns = .program :: rest → step s = programTurn { s with turns := rest }) ∧
      (∀ b, s.turns = .streamByte b :: rest →
        step s = .next
          { s with turns := rest, rxBytes := if s.rxEof = true then s.rxBytes else s.rxBytes ++ [b] }) ∧
      (s.turns = .streamEof :: rest → step s = .next { s with turns := rest, rxEof := true }) ∧
      (s.turns = .raiseCancel :: rest → step s = .next { s with turns := rest, cancel := true }) ∧
      (s.turns = .raiseRst :: rest → step s = .next { s with turns := rest, rst := true }) ∧
      (s.turns = .takeLog :: rest → s.block.logPort = [] → step s = .next { s with turns := rest }) ∧
      (∀ r rs, s.turns = .takeLog :: rest → s.block.logPort = r :: rs →
        step s = .next
          { s with
            turns := rest
            block := { s.block with logPort := rs }
            host := { s.host with seen := s.host.seen ++ [.log r] } }) ∧
      (s.host.point = .stopped →
        (∀ c, s.turns = .command c :: rest → step s = .next { s with turns := rest, cmdPort := s.cmdPort ++ [c] }) ∧
        (s.turns = .takeResponse :: rest → s.block.respPort = [] → step s = .next { s with turns := rest }) ∧
        (∀ r rs, s.turns = .takeResponse :: rest → s.block.respPort = r :: rs →
          step s = .next
            { s with
              turns := rest
              block := { s.block with respPort := rs }
              host := { s.host with seen := s.host.seen ++ [.response r] } }) ∧
        (∀ bytes, s.turns = .write bytes :: rest →
          step s = .next { s with turns := rest, host := { s.host with tx := s.host.tx ++ [bytes] } }) ∧
        (∀ e, s.turns = .sink e :: rest →
          step s = .next
            { s with
              turns := rest
              host := { s.host with sink := if e.code = .none then s.host.sink else s.host.sink ++ [e] } }) ∧
        (∀ p, s.turns = .start p :: rest → ∃ h, step s = .next { s with turns := rest, host := h } ∧ s.Starts p h)) ∧
      (s.host.point ≠ .stopped → ∀ turn, s.turns = turn :: rest → turn.needsFreeHost = true →
        step s = .next { s with turns := rest })

/-- A step runs the decoded instruction: when the record at the head of the command port decodes to `i` and the block
takes it, the step is `exec i` at the state with that record removed (R16). A `cancel` raised while the block is idle is
used up without effect (R160). -/
def Obligations.StepRunsDecodedCommand : Prop :=
  ∀ (s : State) (c : Command) (rest : List Command) (i : Instr),
    s.turns = [] → s.rst = false → s.block.busy = false → s.block.modelFault = none →
    s.cmdPort = c :: rest → decodeCommand c = .ok i →
    step s = exec i { s with cmdPort := rest, cancel := false }

/-- The inputs in order: `rst`, then `cancel`, then the stream item. A reset takes both inputs, and a cancel leaves a
waiting byte in the stream (R101, R164). -/
def Obligations.SidebandBeforeStream : Prop :=
  ∀ s : State, s.turns = [] → s.block.modelFault = none →
    (s.rst = true → step s = exec .rst { s with rst := false, cancel := false } ∧
      ∃ t, step s = .next t ∧ t.block = Block.reset s.config.crc ∧ t.rxBytes = s.rxBytes) ∧
    (s.rst = false → s.cancel = true → s.block.busy = true →
      step s = exec .cancel { s with cancel := false } ∧
      ∃ t, step s = .next t ∧ t.rxBytes = s.rxBytes ∧ t.block.lastResult = .cancelled) ∧
    (s.rst = false → s.cancel = false → s.block.busy = true → s.rxBytes ≠ [] →
      ∃ t, step s = .next t ∧ t.rxBytes = s.rxBytes.tail)

/-- A command waits on the port while a READ_PACKET runs: the block's step takes none, a reset included (R16, R174,
R182). -/
def Obligations.CommandWaitsWhileBusy : Prop :=
  ∀ s t : State, s.block.busy = true → blockTurn s = .next t → t.cmdPort = s.cmdPort

/-- The model faults: `rx_state` 10 to 15, and a state that breaks an invariant of R40 (R22, R162, I19). -/
def Obligations.UnreachableStatesFault : Prop :=
  ∀ s : State,
    (10 ≤ s.block.rxState.toNat → step s = .fault .rxStateUnreachable) ∧
    (s.block.rxState.toNat ≤ 9 →
      ((s.block.busy = true ∧ s.block.rxState = 0) ∨ (s.block.busy = false ∧ s.block.rxState ≠ 0) ∨
       (s.block.busy = true ∧ s.block.curOp ≠ 3) ∨
       (4 ≤ s.block.rxState.toNat ∧ s.block.lenReg.toNat < 7) ∨
       (s.block.rxState = 7 ∧ s.block.lenReg.toNat - 7 ≤ s.block.payCnt.toNat) ∨
       ((s.block.rxState = 8 ∨ s.block.rxState = 9) ∧ s.block.payCnt.toNat ≠ s.block.lenReg.toNat - 7) ∨
       (s.block.pktValid = true ∧ s.block.rxState ≠ 0)) →
      step s = .fault .invariantBroken)

/-! ## CRC unit -/

/-- R83, R84, R85, and CRC16's response, for every choice of the five parameters: the register starts at CRC_INIT, takes
crcStep once per byte in list order, and crcFinal gives the result; nothing but the response port is written (R88). -/
def Obligations.Crc16Answers : Prop :=
  (∀ (p : CrcParams) (c : Half) (b : Byte),
    crcStep p c b =
      (List.range 8).foldl (fun (c : Half) _ => if c.getLsbD 15 then (c <<< 1) ^^^ p.poly else c <<< 1)
        (c ^^^ ((if p.refin = true then b.reverse else b).setWidth 16 <<< 8))) ∧
  (∀ (p : CrcParams) (c : Half), crcFinal p c = (if p.refout = true then c.reverse else c) ^^^ p.xorout) ∧
  (∀ (data : List Byte) (s : State), s.block.busy = false →
    exec (.crc16 data) s = .next
      { s with
        block :=
          { s.block with
            respPort := s.block.respPort ++
              [.crc (crcFinal s.config.crc (data.foldl (crcStep s.config.crc) s.config.crc.init))] } }) ∧
  (∀ (p : CrcParams) (bytes : List Byte), crc16 p bytes = crcFinal p (bytes.foldl (crcStep p) p.init)) ∧
  (∀ p : CrcParams, crc16 p [] = crcFinal p p.init) ∧ crc16 CrcParams.modbus [] = 0xFFFF

/-- R86: the reflected form is the direct form with the register held bit-reversed, and agrees with it on every input
under the defaults. -/
def Obligations.ReflectedFormAgrees : Prop :=
  (0x8005 : Half).reverse = 0xA001 ∧
  (∀ (r : Half) (b : Byte), reflectedStep r b =
    (List.range 8).foldl (fun (r : Half) _ => if r.getLsbD 0 then (r >>> 1) ^^^ 0xA001 else r >>> 1) (r ^^^ b.setWidth 16)) ∧
  (∀ bytes : List Byte, crc16Reflected bytes = bytes.foldl reflectedStep 0xFFFF) ∧
  (∀ (c : Half) (b : Byte), reflectedStep c.reverse b = (crcStep CrcParams.modbus c b).reverse) ∧
  ∀ bytes : List Byte, crc16Reflected bytes = crc16 CrcParams.modbus bytes

/-- R87: the table form agrees with the reflected form on every input, and the table has the entries R87 lists. -/
def Obligations.TableFormAgrees : Prop :=
  (∀ bytes : List Byte, crc16Table bytes = crc16Reflected bytes) ∧
  (∀ bytes : List Byte, crc16Table bytes =
    bytes.foldl (fun (r : Half) (b : Byte) => (r >>> 8) ^^^ crcTable ((r ^^^ b.setWidth 16).extractLsb' 0 8)) 0xFFFF) ∧
  (∀ i : Byte, crcTable i =
    (List.range 8).foldl (fun (r : Half) _ => if r.getLsbD 0 then (r >>> 1) ^^^ 0xA001 else r >>> 1) (i.setWidth 16)) ∧
  crcTable 0x00 = 0x0000 ∧ crcTable 0x01 = 0xC0C1 ∧ crcTable 0x02 = 0xC181 ∧ crcTable 0x03 = 0x0140 ∧
  crcTable 0x04 = 0xC301 ∧ crcTable 0x80 = 0xA001 ∧ crcTable 0xFF = 0x4040

/-- R92: under the defaults the CRC of a whole frame, its two CRC bytes included, is 0. -/
def Obligations.WholeFrameResidueIsZero : Prop :=
  ∀ (f a1 a2 : Byte) (data : List Byte), data.length ≤ 65528 →
    crc16 CrcParams.modbus (encodeFrame CrcParams.modbus f a1 a2 data) = 0

/-- R91 (b), for any change of one covered byte: with bit 0 of CRC_POLY set, the computed CRC changes. -/
def Obligations.OneByteChangeChangesCrc : Prop :=
  ∀ (p : CrcParams) (before after : List Byte) (b b' : Byte), p.poly.getLsbD 0 = true → b ≠ b' →
    crc16 p (before ++ b :: after) ≠ crc16 p (before ++ b' :: after)

/-! ## TX framer -/

/-- R94: ENCODE answers the frame of its operands and writes nothing else (R96). -/
def Obligations.EncodeAnswersFrame : Prop :=
  ∀ (f a1 a2 : Byte) (data : List Byte) (s : State), s.block.busy = false → data.length ≤ 65528 →
    let len : Half := BitVec.ofNat 16 (data.length + 7)
    let hdr : List Byte := [0x55, len.extractLsb' 0 8, len.extractLsb' 8 8, f, a1, a2]
    let c : Half := crc16 s.config.crc (hdr ++ data)
    len.toNat = data.length + 7 ∧
    exec (.encode f a1 a2 data) s = .next
      { s with
        block :=
          { s.block with
            respPort := s.block.respPort ++ [.frame (hdr ++ data ++ [c.extractLsb' 0 8, c.extractLsb' 8 8])] } }

/-- R95 (d): ENCODE with more than 65528 data bytes is refused. -/
def Obligations.EncodeTooLongRefused : Prop :=
  ∀ (f a1 a2 : Byte) (data : List Byte) (s : State), 65528 < data.length →
    exec (.encode f a1 a2 data) s = .refused .encodeTooLong

/-! ## RX framer -/

/-- R100: the step that takes READ_PACKET; no stream item is read and no other register changes. While `busy = 1` the
block takes no command. -/
def Obligations.ReadPacketTaken : Prop :=
  ∀ s : State,
    (s.block.busy = false →
      exec .readPacket s = .next
        { s with
          block := { s.block with busy := true, curOp := 3, pktValid := false, payCnt := 0, rxState := 1 } }) ∧
    (s.block.busy = true → ∀ t, blockTurn s = .next t → t.cmdPort = s.cmdPort)

/-- R104: HUNT takes the sync byte; no other byte starts a frame. -/
def Obligations.HuntTakesSync : Prop :=
  ∀ (s : State) (x : Byte) (rest : List Byte), s.Reads .hunt → s.rxBytes = x :: rest →
    (x = 0x55 → blockTurn s = .next
      { s with
        rxBytes := rest
        block := { s.block with rxAcc := crcStep s.config.crc s.config.crc.init 0x55, rxState := 2 } }) ∧
    (x ≠ 0x55 → ∃ t, blockTurn s = .next t ∧ t.block.rxState = 1)

/-- R105: HUNT skips and logs any other byte; nothing else changes. -/
def Obligations.HuntSkipsNoise : Prop :=
  ∀ (s : State) (x : Byte) (rest : List Byte), s.Reads .hunt → x ≠ 0x55 → s.rxBytes = x :: rest →
    blockTurn s = .next
      { s with
        rxBytes := rest
        block := { s.block with logPort := s.block.logPort ++ [⟨.noiseByte, x.setWidth 16, 0⟩], rxState := 1 } }

/-- R106: LEN_LO writes bits [7:0] of the length. -/
def Obligations.LengthLowByteRead : Prop :=
  ∀ (s : State) (x : Byte) (rest : List Byte), s.Reads .lenLo → s.rxBytes = x :: rest →
    ∃ len : Half, len.extractLsb' 0 8 = x ∧ len.extractLsb' 8 8 = s.block.lenReg.extractLsb' 8 8 ∧
      blockTurn s = .next
        { s with
          rxBytes := rest
          block := { s.block with lenReg := len, rxAcc := crcStep s.config.crc s.block.rxAcc x, rxState := 3 } }

/-- R107: LEN_HI writes bits [15:8]; a length below 7 ends the read with MALFORMED_LENGTH. -/
def Obligations.LengthHighByteChecked : Prop :=
  ∀ (s : State) (x : Byte) (rest : List Byte), s.Reads .lenHi → s.rxBytes = x :: rest →
    ∃ len : Half, len.extractLsb' 0 8 = s.block.lenReg.extractLsb' 0 8 ∧ len.extractLsb' 8 8 = x ∧
      blockTurn s = .next
        { s with
          rxBytes := rest
          block :=
            if len.toNat < 7 then
              { s.block with
                lenReg := len, rxAcc := crcStep s.config.crc s.block.rxAcc x
                logPort := s.block.logPort ++ [⟨.malformedLength, len, 0⟩]
                lastResult := .malformedLength, rxState := 0, busy := false, curOp := 0
                respPort := s.block.respPort ++ [.read .malformedLength none] }
            else { s.block with lenReg := len, rxAcc := crcStep s.config.crc s.block.rxAcc x, rxState := 4 } }

/-- R108 to R110: the three header bytes. -/
def Obligations.HeaderBytesRead : Prop :=
  ∀ (s : State) (x : Byte) (rest : List Byte), s.rxBytes = x :: rest →
    (s.Reads .func → blockTurn s = .next
      { s with
        rxBytes := rest
        block := { s.block with funcReg := x, rxAcc := crcStep s.config.crc s.block.rxAcc x, rxState := 5 } }) ∧
    (s.Reads .addr1 → blockTurn s = .next
      { s with
        rxBytes := rest
        block := { s.block with a1Reg := x, rxAcc := crcStep s.config.crc s.block.rxAcc x, rxState := 6 } }) ∧
    (s.Reads .addr2 → blockTurn s = .next
      { s with
        rxBytes := rest
        block :=
          { s.block with
            a2Reg := x, rxAcc := crcStep s.config.crc s.block.rxAcc x, payCnt := 0
            rxState := if s.block.lenReg = 7 then 8 else 7 } })

/-- R111: DATA stores the byte at `pay_buf[pay_cnt]`, leaves every other byte of the buffer alone, and counts it;
`pay_cnt` does not wrap. The payload buffer's canonical form and R40 are the invariants of StepKeepsRegisterInv. -/
def Obligations.DataByteStored : Prop :=
  ∀ (s : State) (x : Byte) (rest : List Byte), s.Reads .data → s.block.RegisterInv → s.rxBytes = x :: rest →
    ∃ buf : Memory,
      Memory.read buf s.block.payCnt.toNat = x ∧
      (∀ k, k ≠ s.block.payCnt.toNat → Memory.read buf k = Memory.read s.block.payBuf k) ∧
      (s.block.payCnt + 1).toNat = s.block.payCnt.toNat + 1 ∧ s.block.payCnt.toNat + 1 ≤ 65528 ∧
      blockTurn s = .next
        { s with
          rxBytes := rest
          block :=
            { s.block with
              payBuf := buf, rxAcc := crcStep s.config.crc s.block.rxAcc x, payCnt := s.block.payCnt + 1
              rxState := if s.block.payCnt + 1 = s.block.lenReg - 7 then 8 else 7 } }

/-- R112: CRC_LO. -/
def Obligations.ChecksumLowByteRead : Prop :=
  ∀ (s : State) (x : Byte) (rest : List Byte), s.Reads .crcLo → s.rxBytes = x :: rest →
    blockTurn s = .next { s with rxBytes := rest, block := { s.block with crcRxLo := x, rxState := 9 } }

/-- R113 to R115: CRC_HI compares; a match makes the packet valid and returns it, a mismatch is logged. The computed
checksum is the CRC16 of the frame's covered bytes, in every state that meets the checksum invariants of
StepKeepsChecksumInv. -/
def Obligations.ChecksumCompared : Prop :=
  ∀ (s : State) (x : Byte) (rest : List Byte), s.Reads .crcHi → s.rxBytes = x :: rest →
    ∃ recv : Half, recv = (x.setWidth 16 <<< 8) ||| s.block.crcRxLo.setWidth 16 ∧
      (s.block.ChecksumInv s.config.crc →
        crcFinal s.config.crc s.block.rxAcc = crc16 s.config.crc
          (frameHeader s.block.lenReg s.block.funcReg s.block.a1Reg s.block.a2Reg ++
            Memory.slice s.block.payBuf 0 (s.block.lenReg.toNat - 7))) ∧
      (crcFinal s.config.crc s.block.rxAcc = recv →
        blockTurn s = .next
          { s with
            rxBytes := rest
            block :=
              { s.block with
                lastCrcCalc := recv, lastCrcRecv := recv, pktValid := true
                lastResult := .packetOk, rxState := 0, busy := false, curOp := 0
                respPort := s.block.respPort ++
                  [.read .packetOk (some
                    { function := s.block.funcReg, address1 := s.block.a1Reg, address2 := s.block.a2Reg
                      length := s.block.lenReg
                      payload := Memory.slice s.block.payBuf 0 (s.block.lenReg.toNat - 7), checksum := recv })] } }) ∧
      (crcFinal s.config.crc s.block.rxAcc ≠ recv →
        blockTurn s = .next
          { s with
            rxBytes := rest
            block :=
              { s.block with
                lastCrcCalc := crcFinal s.config.crc s.block.rxAcc, lastCrcRecv := recv
                logPort := s.block.logPort ++
                  [⟨.checksumMismatch, crcFinal s.config.crc s.block.rxAcc, recv⟩]
                lastResult := .checksumMismatch, rxState := 0, busy := false, curOp := 0
                respPort := s.block.respPort ++ [.read .checksumMismatch none] } })

/-- R116: the end of the stream in any state but IDLE ends the read TRUNCATED; the end mark stays. -/
def Obligations.EndOfStreamTruncates : Prop :=
  ∀ (s : State) (ph : RxPhase), s.Reads ph → ph ≠ .idle → s.rxBytes = [] → s.rxEof = true →
    blockTurn s = .next
      { s with
        block :=
          { s.block with
            logPort := s.block.logPort ++ [⟨.truncated, s.block.rxState.setWidth 16, s.block.payCnt⟩]
            lastResult := .truncated, rxState := 0, busy := false, curOp := 0
            respPort := s.block.respPort ++ [.read .truncated none] } }

/-- R46, R125: on an empty stream that has not ended a running READ_PACKET holds; with no program of the host running
the whole machine stays as it is (assumption 4). -/
def Obligations.EmptyStreamHolds : Prop :=
  ∀ (s : State) (ph : RxPhase), s.Reads ph → ph ≠ .idle → s.rxBytes = [] → s.rxEof = false →
    blockTurn s = .next s ∧
    (s.block.modelFault = none → s.turns = [] → s.host.point = .stopped → step s = .next s)

/-- R117: `cancel` ends a running READ_PACKET with CANCELLED, reads no stream item and logs nothing; with `busy = 0` it
has no effect. -/
def Obligations.CancelEndsRead : Prop :=
  ∀ s : State,
    (s.block.busy = true → exec .cancel s = .next
      { s with
        block :=
          { s.block with
            lastResult := .cancelled, rxState := 0, busy := false, curOp := 0
            respPort := s.block.respPort ++ [.read .cancelled none] } }) ∧
    (s.block.busy = false → exec .cancel s = .next s)

/-- R98, after any noise that holds no sync byte: READ_PACKET on the frame ENCODE builds ends PACKET_OK after
exactly the noise and that frame, with the same function, addresses and payload, each noise byte logged in order. It
holds for every choice of the CRC parameters. That each machine step of the run is one step of the block is the model's
choice: no turn is listed, so the block moves first and no other agent moves during the run (assumption 5). -/
def Obligations.FrameReadsBack : Prop :=
  ∀ (s : State) (noise data rest : List Byte) (f a1 a2 : Byte) (more : List Command),
    s.TakesCommand → Memory.wf s.block.payBuf → s.cmdPort = ⟨0x00000003, []⟩ :: more →
    (∀ x ∈ noise, x ≠ 0x55) → data.length ≤ 65528 →
    s.rxBytes = noise ++ encodeFrame s.config.crc f a1 a2 data ++ rest →
    ∃ t : State, ∃ crc : Half,
      Host.Core.run core (1 + noise.length + (8 + data.length)) s = .next t ∧
      t.rxBytes = rest ∧ t.cmdPort = more ∧ t.host = s.host ∧ t.block.busy = false ∧ t.block.pktValid = true ∧
      t.block.lastResult = .packetOk ∧
      t.block.logPort = s.block.logPort ++ noise.map (fun x => ⟨.noiseByte, x.setWidth 16, 0⟩) ∧
      t.block.respPort = s.block.respPort ++
        [.read .packetOk (some
          { function := f, address1 := a1, address2 := a2, length := BitVec.ofNat 16 (data.length + 7)
            payload := data, checksum := crc })]

/-! ## Payload decoder -/

/-- R126: DECODE answers from the packet registers when they hold a validated packet, else NONE; it writes nothing but
the response port. -/
def Obligations.DecodeAnswers : Prop :=
  ∀ s : State, s.block.busy = false →
    exec .decode s = .next
      { s with
        block :=
          { s.block with
            respPort := s.block.respPort ++
              [if s.block.pktValid = true then
                .decoded
                  (decodeEvent s.block.funcReg s.block.a1Reg s.block.a2Reg
                    (Memory.slice s.block.payBuf 0 (s.block.lenReg.toNat - 7))).1
                  (decodeEvent s.block.funcReg s.block.a1Reg s.block.a2Reg
                    (Memory.slice s.block.payBuf 0 (s.block.lenReg.toNat - 7))).2
               else .decoded .none 0] } }

/-- The rows of R127: the three occupancy payloads, the other payloads at (3, 5), four bytes and other lengths at
(3, 6), other addresses and other functions (R128 to R134). -/
def Obligations.DecisionTable : Prop :=
  decodeEvent 4 3 5 [0x00, 0xFF, 0xFF] = (.unoccupied, 0) ∧
  decodeEvent 4 3 5 [0x01, 0x00, 0xFF] = (.occupiedStatic, 0) ∧
  decodeEvent 4 3 5 [0x01, 0x01, 0x01] = (.occupiedMoving, 0) ∧
  (∀ p, p ≠ [0x00, 0xFF, 0xFF] → p ≠ [0x01, 0x00, 0xFF] → p ≠ [0x01, 0x01, 0x01] →
    decodeEvent 4 3 5 p = (.none, 0)) ∧
  (∀ p0 p1 p2 p3 : Byte, decodeEvent 4 3 6 [p0, p1, p2, p3] =
    (.bodyData, p0.setWidth 32 ||| (p1.setWidth 32 <<< 8) ||| (p2.setWidth 32 <<< 16) ||| (p3.setWidth 32 <<< 24))) ∧
  (∀ p : List Byte, p.length ≠ 4 → decodeEvent 4 3 6 p = (.none, 0)) ∧
  (∀ (a1 a2 : Byte) (p : List Byte), ¬ (a1 = 3 ∧ a2 = 5) → ¬ (a1 = 3 ∧ a2 = 6) →
    decodeEvent 4 a1 a2 p = (.none, 0)) ∧
  (∀ (f a1 a2 : Byte) (p : List Byte), f ≠ 4 → decodeEvent f a1 a2 p = (.none, 0))

/-- R128 to R130: the three occupancy rows, by key and payload, answer their event codes. The frames are those of the
rules' examples, with the checksum bytes of the default parameters. -/
def Obligations.OccupancyRowsAnswer : Prop :=
  ∀ s : State,
    (decode (.packet 0x040305 [0x00, 0xFF, 0xFF]) = .ok .envUnoccupied ∧
      exec .envUnoccupied s = .next
        { s with block := { s.block with respPort := s.block.respPort ++ [.decoded .unoccupied 0] } } ∧
      EventCode.unoccupied.code = 1 ∧
      encodeFrame CrcParams.modbus 4 3 5 [0x00, 0xFF, 0xFF] =
        [0x55, 0x0A, 0x00, 0x04, 0x03, 0x05, 0x00, 0xFF, 0xFF, 0x0D, 0x24]) ∧
    (decode (.packet 0x040305 [0x01, 0x00, 0xFF]) = .ok .envOccupiedStatic ∧
      exec .envOccupiedStatic s = .next
        { s with block := { s.block with respPort := s.block.respPort ++ [.decoded .occupiedStatic 0] } } ∧
      EventCode.occupiedStatic.code = 2 ∧
      encodeFrame CrcParams.modbus 4 3 5 [0x01, 0x00, 0xFF] =
        [0x55, 0x0A, 0x00, 0x04, 0x03, 0x05, 0x01, 0x00, 0xFF, 0x1D, 0x14]) ∧
    (decode (.packet 0x040305 [0x01, 0x01, 0x01]) = .ok .envOccupiedMoving ∧
      exec .envOccupiedMoving s = .next
        { s with block := { s.block with respPort := s.block.respPort ++ [.decoded .occupiedMoving 0] } } ∧
      EventCode.occupiedMoving.code = 3 ∧
      encodeFrame CrcParams.modbus 4 3 5 [0x01, 0x01, 0x01] =
        [0x55, 0x0A, 0x00, 0x04, 0x03, 0x05, 0x01, 0x01, 0x01, 0x9D, 0x04])

/-- R132: the body-data row passes its four bytes through unchanged, byte 0 in bits [7:0] (R49). -/
def Obligations.BodyDataRowAnswers : Prop :=
  ∀ (p0 p1 p2 p3 : Byte) (s : State),
    ∃ bits : Word, bits.extractLsb' 0 8 = p0 ∧ bits.extractLsb' 8 8 = p1 ∧ bits.extractLsb' 16 8 = p2 ∧
      bits.extractLsb' 24 8 = p3 ∧
      exec (.bodyData p0 p1 p2 p3) s = .next
        { s with block := { s.block with respPort := s.block.respPort ++ [.decoded .bodyData bits] } } ∧
      EventCode.bodyData.code = 4

/-- R131, R133, R134: the rows that give no event answer NONE, whatever their payload, and write nothing else. -/
def Obligations.SilentRowsAnswerNone : Prop :=
  ∀ (f a1 a2 : Byte) (p : List Byte) (s : State) (i : Instr),
    i = .envOther p ∨ i = .bodyOtherLen p ∨ i = .reportOther a1 a2 p ∨ i = .nonReport f a1 a2 p →
    exec i s = .next { s with block := { s.block with respPort := s.block.respPort ++ [.decoded .none 0] } }

/-- R134 for the handshake's two rows: outside the one point at which the row is the handshake's own, a function-2 or
function-3 packet in the registers is answered with no event. That the two rows have a second effect at those points is
the model's reading of the table (assumption 13). -/
def Obligations.SetParamRowsDecodeToNone : Prop :=
  ∀ (a1 a2 : Byte) (p : List Byte) (s : State),
    ((∀ r, s.host.point ≠ .handshakeSend r) →
      exec (.setParam a1 a2 p) s = .next
        { s with block := { s.block with respPort := s.block.respPort ++ [.decoded .none 0] } }) ∧
    ((∀ r, s.host.point ≠ .handshakeWait r) →
      exec (.setParamAck a1 a2 p) s = .next
        { s with block := { s.block with respPort := s.block.respPort ++ [.decoded .none 0] } })

/-- The decision table of R127 and the rows of opcode_table.json agree: with a validated packet in the registers, DECODE
does what the packet's row does (R78, R126). At the handshake's own points the host is not decoding (assumption 13). -/
def Obligations.DecodeRunsThePacketsRow : Prop :=
  ∀ (s : State) (i : Instr), s.block.pktValid = true → s.host.point.handshakes = false →
    decode (.packet (packetKey s.block.funcReg s.block.a1Reg s.block.a2Reg) s.block.payload) = .ok i →
    exec .decode s = exec i s

/-- R135: the value a sink reads in `body_bits`. -/
def Obligations.BodyValueFormula : Prop :=
  ∀ bits : Word,
    let s : Rat := if bits.getLsbD 31 then -1 else 1
    let e : Nat := (bits.extractLsb' 23 8).toNat
    let m : Rat := (bits.extractLsb' 0 23).toNat
    (1 ≤ e ∧ e ≤ 254 → (bodyValue bits).toRat = some (s * 2 ^ ((e : Int) - 127) * (1 + m / 2 ^ 23))) ∧
    (e = 0 → (bodyValue bits).toRat = some (s * 2 ^ (-126 : Int) * (m / 2 ^ 23))) ∧
    (e = 255 → m = 0 → bodyValue bits = .infinity (bits.getLsbD 31)) ∧
    (e = 255 → m ≠ 0 → bodyValue bits = .nan)

/-! ## Reset and the register view -/

/-- R174: every element of the block takes its reset value, the ports are emptied with no response and no log record,
and a command not yet taken stays; the stream and the parameters are not touched (R175). -/
def Obligations.RstResetsBlock : Prop :=
  ∀ s : State, exec .rst s = .next
    { s with
      block :=
        { rxState := 0, busy := false, curOp := 0, lenReg := 0, funcReg := 0, a1Reg := 0, a2Reg := 0
          payBuf := [], payCnt := 0, rxAcc := s.config.crc.init, crcRxLo := 0, pktValid := false
          lastResult := .none, lastCrcCalc := 0, lastCrcRecv := 0, respPort := [], logPort := [] } }

/-- R39: the reset values, for every instance; every byte of `pay_buf` is 0 and CRC_RUN reads CRC16 of the empty list.
The values of the other agents' state are the model's choice and are not stated here (assumption 19). -/
def Obligations.ResetValues : Prop :=
  ∀ c : Config,
    let b := (State.resetWith c).block
    b.rxState = 0 ∧ b.busy = false ∧ b.curOp = 0 ∧ b.lenReg = 0 ∧ b.funcReg = 0 ∧ b.a1Reg = 0 ∧ b.a2Reg = 0 ∧
    (∀ k, Memory.read b.payBuf k = 0) ∧ b.payCnt = 0 ∧ b.rxAcc = c.crc.init ∧
    crcFinal c.crc b.rxAcc = crc16 c.crc [] ∧ b.crcRxLo = 0 ∧ b.pktValid = false ∧ b.lastResult = .none ∧
    b.lastCrcCalc = 0 ∧ b.lastCrcRecv = 0 ∧ b.respPort = [] ∧ b.logPort = []

/-- R33: the fields of the register view, their places, and zeros everywhere else; LAST_RESULT shows the status numbers
of R72, and no status has a reserved one. -/
def Obligations.RegisterViewLayout : Prop :=
  (Status.none.code = 0 ∧ Status.packetOk.code = 1 ∧ Status.checksumMismatch.code = 2 ∧ Status.truncated.code = 3 ∧
    Status.malformedLength.code = 4 ∧ Status.cancelled.code = 5 ∧ ∀ st : Status, st.code.toNat ≤ 5) ∧
  ∀ (p : CrcParams) (b : Block) (i : Nat),
    ((b.view p 0 i).extractLsb' 0 1 = BitVec.ofBool b.busy ∧ (b.view p 0 i).extractLsb' 1 1 = BitVec.ofBool b.pktValid ∧
      (b.view p 0 i).extractLsb' 2 4 = b.rxState ∧ (b.view p 0 i).extractLsb' 6 4 = b.lastResult.code ∧
      (b.view p 0 i).extractLsb' 10 4 = b.curOp ∧ (b.view p 0 i).extractLsb' 14 18 = 0) ∧
    ((b.view p 1 i).extractLsb' 0 16 = b.lenReg ∧ (b.view p 1 i).extractLsb' 16 16 = 0) ∧
    ((b.view p 2 i).extractLsb' 0 8 = b.funcReg ∧ (b.view p 2 i).extractLsb' 8 8 = b.a1Reg ∧
      (b.view p 2 i).extractLsb' 16 8 = b.a2Reg ∧ (b.view p 2 i).extractLsb' 24 8 = 0) ∧
    ((b.view p 3 i).extractLsb' 0 16 = crcFinal p b.rxAcc ∧ (b.view p 3 i).extractLsb' 16 8 = b.crcRxLo ∧
      (b.view p 3 i).extractLsb' 24 8 = 0) ∧
    ((b.view p 4 i).extractLsb' 0 16 = b.payCnt ∧ (b.view p 4 i).extractLsb' 16 16 = 0) ∧
    ((b.view p 5 i).extractLsb' 0 16 = b.lastCrcCalc ∧ (b.view p 5 i).extractLsb' 16 16 = b.lastCrcRecv) ∧
    ((b.view p 6 i).extractLsb' 0 8 = Memory.read b.payBuf i ∧ (b.view p 6 i).extractLsb' 8 24 = 0) ∧
    (∀ n, 7 ≤ n → n ≤ 15 → b.view p n i = 0)

/-- R34: a read of the register view, at any time, changes nothing but what the host has seen; a write and a number
above 15 are refused. A PAYLOAD index above 65527, for which R33 gives no byte, is refused too (assumption 18). -/
def Obligations.ViewReadHasNoSideEffect : Prop :=
  ∀ (s : State) (n i : Nat) (v : Word) (rest : List Turn), s.block.modelFault = none →
    (s.turns = .viewRead n i :: rest → n ≤ 15 → (n = 6 → i ≤ 65527) →
      step s = .next
        { s with
          turns := rest
          host := { s.host with seen := s.host.seen ++ [.view n i (s.block.view s.config.crc n i)] } }) ∧
    (s.turns = .viewRead n i :: rest → 15 < n → step s = .refused .viewNumber) ∧
    (s.turns = .viewRead n i :: rest → n = 6 → 65527 < i → step s = .refused .viewIndex) ∧
    (s.turns = .viewWrite n v :: rest → step s = .refused .viewWrite)

/-- R71, R73, R74: the response word and what follows it, for each of the four operations, and the numbers of the event
and log codes, with no reserved number. A received frame is the packet's fields in the layout of R57. -/
def Obligations.ResponseAndLogFormats : Prop :=
  (∀ r : Response, r.word.extractLsb' 12 20 = 0) ∧
  (∀ c : Half, (Response.crc c).word = 1 ∧ (Response.crc c).tail = .crc c) ∧
  (∀ bytes, (Response.frame bytes).word = 2 ∧ (Response.frame bytes).tail = .bytes bytes) ∧
  (∀ (st : Status) (p : Option Packet),
    (Response.read st p).word.extractLsb' 0 4 = 3 ∧ (Response.read st p).word.extractLsb' 4 4 = st.code ∧
      (Response.read st p).word.extractLsb' 8 4 = 0) ∧
  (∀ (st : Status) (p : Packet),
    (Response.read st (some p)).tail = .bytes
      ([0x55, p.length.extractLsb' 0 8, p.length.extractLsb' 8 8, p.function, p.address1, p.address2] ++ p.payload ++
        [p.checksum.extractLsb' 0 8, p.checksum.extractLsb' 8 8])) ∧
  (∀ st : Status, (Response.read st none).tail = .nothing) ∧
  (∀ (ev : EventCode) (bits : Word),
    (Response.decoded ev bits).word.extractLsb' 0 4 = 4 ∧ (Response.decoded ev bits).word.extractLsb' 4 4 = 0 ∧
      (Response.decoded ev bits).word.extractLsb' 8 4 = ev.code ∧ (Response.decoded ev bits).tail = .bodyBits bits) ∧
  (EventCode.none.code = 0 ∧ EventCode.unoccupied.code = 1 ∧ EventCode.occupiedStatic.code = 2 ∧
    EventCode.occupiedMoving.code = 3 ∧ EventCode.bodyData.code = 4 ∧ ∀ ev : EventCode, ev.code.toNat ≤ 4) ∧
  (LogCode.noiseByte.code = 1 ∧ LogCode.checksumMismatch.code = 2 ∧ LogCode.malformedLength.code = 3 ∧
    LogCode.truncated.code = 4 ∧ ∀ l : LogCode, 1 ≤ l.code.toNat ∧ l.code.toNat ≤ 4)

/-! ## The host's programs -/

/-- R143, the send, and R77's SEND. SET_PARAM at the handshake's `send` point puts ENCODE 2 with the register and the
value on the command port and goes on to wait for the frame; when ENCODE has answered it, the frame is written, the send
is counted, and the program goes on to `wait`. SEND puts ENCODE with its operands on the port, writes the frame ENCODE
answers, and stops. Nothing else changes, and a program whose response is not there waits. How the program finds its own
response is the model's choice (assumption 12). -/
def Obligations.SetParamIssuesEncode : Prop :=
  (∀ (a1 a2 : Byte) (v : List Byte) (r : SensorReg) (s : State), s.host.point = .handshakeSend r → v.length ≤ 65528 →
    ∃ c : Command, decodeCommand c = .ok (.encode 2 a1 a2 v) ∧
      exec (.setParam a1 a2 v) s = .next
        { s with cmdPort := s.cmdPort ++ [c], host := { s.host with point := .handshakeFrame r } }) ∧
  (∀ (bytes : List Byte) (r : SensorReg) (s s' : State), s.host.point = .handshakeFrame r →
    s.ownResponse = some (.frame bytes, s') →
    programTurn s = .next
      { s' with
        host :=
          { s'.host with tx := s'.host.tx ++ [bytes], sends := s'.host.sends + 1, point := .handshakeRead r } }) ∧
  (∀ (f a1 a2 : Byte) (data : List Byte) (s : State), s.host.point = .sendIssue f a1 a2 data → data.length ≤ 65528 →
    ∃ c : Command, decodeCommand c = .ok (.encode f a1 a2 data) ∧
      programTurn s = .next { s with cmdPort := s.cmdPort ++ [c], host := { s.host with point := .sendWait } }) ∧
  (∀ (bytes : List Byte) (s s' : State), s.host.point = .sendWait → s.ownResponse = some (.frame bytes, s') →
    programTurn s = .next { s' with host := { s'.host with tx := s'.host.tx ++ [bytes], point := .stopped } }) ∧
  (∀ (r : SensorReg) (s : State), s.host.point = .handshakeFrame r ∨ s.host.point = .sendWait →
    s.ownResponse = none → programTurn s = .next s)

/-- R143 to R146, the acknowledgment: SET_PARAM_ACK at the handshake's `wait` point. For the register and with the sent
value, the room type goes on to the gear threshold and the gear threshold ends run_initialization with OK; with another
value the command is sent again; for another register the wait goes on, or the command is sent again, as HS_RESEND_ON
says. Nothing but the host's side changes. -/
def Obligations.AckMovesHandshake : Prop :=
  ∀ (a1 a2 : Byte) (p v : List Byte) (r : SensorReg) (s : State), s.host.point = .handshakeWait r →
    encodeValue s.config.hsValueEnc (s.host.sensor.value r) = some v →
    (a1 = s.config.hsAddr1 → a2 = r.address2 → p = v → r = .roomType →
      exec (.setParamAck a1 a2 p) s = .next
        { s with host := { s.host with sends := 0, point := .handshakeSend .gearThreshold } }) ∧
    (a1 = s.config.hsAddr1 → a2 = r.address2 → p = v → r = .gearThreshold →
      exec (.setParamAck a1 a2 p) s = .next
        { s with
          host :=
            { s.host with
              initResult := some .ok
              point := if s.host.thenLoop = true then .loopReadIssue else .stopped } }) ∧
    (a1 = s.config.hsAddr1 → a2 = r.address2 → p ≠ v →
      exec (.setParamAck a1 a2 p) s = .next { s with host := { s.host with point := .handshakeSend r } }) ∧
    (¬ (a1 = s.config.hsAddr1 ∧ a2 = r.address2) →
      exec (.setParamAck a1 a2 p) s = .next
        { s with
          host :=
            { s.host with
              point :=
                if s.config.hsResendOn = .wrongValueAck then .handshakeRead r else .handshakeSend r } })

/-- R147, R150, at the `send` label: a value outside the range of HS_VALUE_ENC is refused, HS_MAX_SENDS sends already
made end run_initialization with INIT_TIMEOUT, and otherwise the program runs SET_PARAM for the register. With
HS_MAX_SENDS unbounded it never gives up. -/
def Obligations.HandshakeSendBounded : Prop :=
  ∀ (s : State) (r : SensorReg), s.host.point = .handshakeSend r →
    (encodeValue s.config.hsValueEnc (s.host.sensor.value r) = none → programTurn s = .refused .handshakeValue) ∧
    (∀ v, encodeValue s.config.hsValueEnc (s.host.sensor.value r) = some v →
      (s.config.hsMaxSends = some s.host.sends →
        programTurn s = .next { s with host := { s.host with initResult := some .timeout, point := .stopped } }) ∧
      (s.config.hsMaxSends ≠ some s.host.sends →
        programTurn s = exec (.setParam s.config.hsAddr1 r.address2 v) s))

/-- R143, R146, R148, at the `wait` label: READ puts READ_PACKET on the command port, and the program waits for its
response. TRUNCATED and CANCELLED end run_initialization with INIT_STREAM_FAILURE, a packet that is an acknowledgment for
the register runs SET_PARAM_ACK, and anything else is discarded as HS_RESEND_ON says; no packet is decoded and no event
delivered. How the program finds its own response is the model's choice (assumption 12). -/
def Obligations.HandshakeReadOutcomes : Prop :=
  (∀ (s : State) (r : SensorReg), s.host.point = .handshakeRead r →
    programTurn s = .next
      { s with
        cmdPort := s.cmdPort ++ [⟨0x00000003, []⟩]
        host := { s.host with point := .handshakeWait r } }) ∧
  (∀ (s : State) (r : SensorReg), s.host.point = .handshakeWait r → s.ownResponse = none → programTurn s = .next s) ∧
  ∀ (s s' : State) (r : SensorReg) (st : Status) (p : Option Packet), s.host.point = .handshakeWait r →
    s.ownResponse = some (.read st p, s') →
    (st = .truncated ∨ st = .cancelled →
      programTurn s = .next
        { s' with host := { s'.host with initResult := some .streamFailure, point := .stopped } }) ∧
    (∀ q, st = .packetOk → p = some q → q.function = 3 → q.address1 = s.config.hsAddr1 → q.address2 = r.address2 →
      programTurn s = exec (.setParamAck q.address1 q.address2 q.payload) s') ∧
    ((st = .checksumMismatch ∨ st = .malformedLength ∨
        ∃ q, st = .packetOk ∧ p = some q ∧
          ¬ (q.function = 3 ∧ q.address1 = s.config.hsAddr1 ∧ q.address2 = r.address2)) →
      programTurn s = .next
        { s' with
          host :=
            { s'.host with
              point := if s.config.hsResendOn = .wrongValueAck then .handshakeRead r else .handshakeSend r } })

/-- R142 and W6, over every step: the gear-threshold handshake is entered only when the room type's acknowledgment with
exactly the sent value is the response of the handshake's READ_PACKET. That this response is the last record on the
response port is the model's choice (assumption 12). -/
def Obligations.GearOnlyAfterRoomAck : Prop :=
  ∀ s t : State, step s = .next t → t.host.point.inGearHandshake = true → s.host.point.inGearHandshake = false →
    ∃ q : Packet, s.host.point = .handshakeWait .roomType ∧
      s.block.respPort.getLast? = some (.read .packetOk (some q)) ∧
      q.function = 3 ∧ q.address1 = s.config.hsAddr1 ∧ q.address2 = 0x10 ∧
      encodeValue s.config.hsValueEnc s.host.sensor.roomType = some q.payload

/-- R139, R140, R77: the read of run_loop and of READ_EVENT. READ puts READ_PACKET on the command port, and the program
waits for its response. In run_loop TRUNCATED and CANCELLED end the loop, PACKET_OK goes on to DECODE, and the other
statuses loop again with no event; in READ_EVENT PACKET_OK goes on to DECODE and any other status stops. Over every step
of the machine, run_loop is left only with such a TRUNCATED or CANCELLED response. How the program finds its own response
is the model's choice (assumption 12). -/
def Obligations.LoopReadOutcomes : Prop :=
  (∀ s : State,
    (s.host.point = .loopReadIssue → programTurn s = .next
      { s with cmdPort := s.cmdPort ++ [⟨0x00000003, []⟩], host := { s.host with point := .loopReadWait } }) ∧
    (s.host.point = .eventReadIssue → programTurn s = .next
      { s with cmdPort := s.cmdPort ++ [⟨0x00000003, []⟩], host := { s.host with point := .eventReadWait } }) ∧
    (s.host.point = .loopReadWait ∨ s.host.point = .eventReadWait → s.ownResponse = none →
      programTurn s = .next s)) ∧
  (∀ (s s' : State) (st : Status) (p : Option Packet), s.ownResponse = some (.read st p, s') →
    (s.host.point = .loopReadWait → programTurn s = .next
      { s' with
        host :=
          { s'.host with
            point :=
              if st = .truncated ∨ st = .cancelled then .stopped
              else if st = .packetOk then .loopDecodeIssue else .loopReadIssue } }) ∧
    (s.host.point = .eventReadWait → programTurn s = .next
      { s' with
        host := { s'.host with point := if st = .packetOk then .eventDecodeIssue else .stopped } })) ∧
  (∀ s t : State, step s = .next t → s.host.point.inLoop = true → t.host.point.inLoop = false →
    s.host.point = .loopReadWait ∧ t.host.point = .stopped ∧
      ∃ st p, s.block.respPort.getLast? = some (.read st p) ∧ (st = .truncated ∨ st = .cancelled))

/-- R139, R141, R77: the decode of run_loop and of READ_EVENT. DECODE goes on the command port, and the program waits for
its response. In run_loop an event is delivered once, at the end of the sink, and NONE delivers nothing; READ_EVENT
stops, its event among what the host has read. How the program finds its own response is the model's choice
(assumption 12). -/
def Obligations.LoopDeliversEvent : Prop :=
  (∀ s : State,
    (s.host.point = .loopDecodeIssue → programTurn s = .next
      { s with cmdPort := s.cmdPort ++ [⟨0x00000004, []⟩], host := { s.host with point := .loopDecodeWait } }) ∧
    (s.host.point = .eventDecodeIssue → programTurn s = .next
      { s with cmdPort := s.cmdPort ++ [⟨0x00000004, []⟩], host := { s.host with point := .eventDecodeWait } }) ∧
    (s.host.point = .loopDecodeWait ∨ s.host.point = .eventDecodeWait → s.ownResponse = none →
      programTurn s = .next s)) ∧
  ∀ (s s' : State) (ev : EventCode) (bits : Word), s.ownResponse = some (.decoded ev bits, s') →
    (s.host.point = .loopDecodeWait → programTurn s = .next
      { s' with
        host :=
          { s'.host with
            sink := if ev = .none then s'.host.sink else s'.host.sink ++ [⟨ev, bits⟩]
            point := .loopReadIssue } }) ∧
    (s.host.point = .eventDecodeWait →
      programTurn s = .next { s' with host := { s'.host with point := .stopped } } ∧
      s'.host.seen = s.host.seen ++ s.block.respPort.map .response)

/-- R139, R141, over every step: the sink changes only by run_loop delivering the event its DECODE answered, or by the
host's own SINK while no program runs. The model's choices: that the answer is the last record on the response port
(assumption 12), that a host whose program runs has no SINK of its own (assumption 11), and what the host's own SINK
delivers (assumptions 16 and 29). -/
def Obligations.SinkGetsOnlyDecodedEvents : Prop :=
  ∀ s t : State, step s = .next t → t.host.sink ≠ s.host.sink →
    (∃ ev bits, s.host.point = .loopDecodeWait ∧ s.block.respPort.getLast? = some (.decoded ev bits) ∧ ev ≠ .none ∧
      t.host.sink = s.host.sink ++ [⟨ev, bits⟩]) ∨
    (∃ e rest, s.turns = .sink e :: rest ∧ s.host.point = .stopped ∧ e.code ≠ .none ∧
      t.host.sink = s.host.sink ++ [e])

/-! ## Whole-machine rules -/

/-- State.reset meets the invariants of StepKeepsRegisterInv and StepKeepsChecksumInv, for every instance. -/
def Obligations.ResetMeetsInvariants : Prop :=
  (∀ c : Config, (State.resetWith c).block.RegisterInv ∧ (State.resetWith c).block.ChecksumInv c.crc) ∧
  State.reset.block.RegisterInv ∧ State.reset.block.ChecksumInv State.reset.config.crc

/-- R40, R23, R26, R29: every step keeps the register invariants, whichever agent moves. -/
def Obligations.StepKeepsRegisterInv : Prop :=
  ∀ s t : State, s.block.RegisterInv → step s = .next t → t.block.RegisterInv

/-- R27, R29, R36, R118: every step keeps the checksum invariants. The running CRC is the CRC of exactly the frame bytes
absorbed since the sync byte, and a valid packet's checksum is the CRC of its covered bytes. -/
def Obligations.StepKeepsChecksumInv : Prop :=
  ∀ s t : State, s.block.RegisterInv → s.block.ChecksumInv s.config.crc → step s = .next t →
    t.block.ChecksumInv t.config.crc

/-- R38, R178: no step changes a parameter. -/
def Obligations.ParametersNeverChange : Prop :=
  ∀ s t : State, step s = .next t → t.config = s.config

/-- R29, R32, R114: `pkt_valid` rises only in a step of the block that takes the CRC high byte of a frame whose computed
checksum equals the transmitted one. -/
def Obligations.OnlyMatchSetsPktValid : Prop :=
  ∀ s t : State, step s = .next t → s.block.pktValid = false → t.block.pktValid = true →
    ∃ b rest, s.block.busy = true ∧ s.block.rxState = 9 ∧ s.rxBytes = b :: rest ∧ t.rxBytes = rest ∧
      crcFinal s.config.crc s.block.rxAcc = (b.setWidth 16 <<< 8) ||| s.block.crcRxLo.setWidth 16 ∧
      t.block.lastResult = .packetOk

/-- R42, R43, R54: a step leaves the RX stream alone, takes its head, or appends one byte at its end; bytes are taken
only while a READ_PACKET runs, the end is sticky, and after it nothing is appended. -/
def Obligations.StreamIsReadInOrder : Prop :=
  ∀ s t : State, step s = .next t →
    (t.rxBytes = s.rxBytes ∨
     (∃ b, s.rxBytes = b :: t.rxBytes ∧ s.block.busy = true) ∨
     (∃ b, t.rxBytes = s.rxBytes ++ [b] ∧ s.rxEof = false)) ∧
    (s.rxEof = true → t.rxEof = true)

/-- R16, R18, R32: a step of the block either resets, or keeps every record on the two ports and adds at most one
response; the log never drops a record. -/
def Obligations.PortsKeepTheirRecords : Prop :=
  ∀ s t : State, blockTurn s = .next t → s.rst = false →
    (t.block.respPort = s.block.respPort ∨ ∃ r, t.block.respPort = s.block.respPort ++ [r]) ∧
    (t.block.logPort = s.block.logPort ∨ ∃ r, t.block.logPort = s.block.logPort ++ [r])

/-- R45, R97: the block's step does not touch the host's side (so it never writes the stream), nor the parameters, nor
the list of turns. -/
def Obligations.BlockLeavesHostAlone : Prop :=
  ∀ s t : State, blockTurn s = .next t →
    t.host = s.host ∧ t.config = s.config ∧ t.turns = s.turns ∧ t.rxEof = s.rxEof
end

