-- ==== Sys2Proof/Laws/State.lean ====
section
/-!
SUPPORT. One lemma per field for each named update of the state and of the block record, so that no later proof unfolds
an update.
-/

namespace Sys2Proof.Machine

@[simp] theorem Block.respond_rxState (b : Block) (r : Response) :
    (b.respond r).rxState = b.rxState := rfl
@[simp] theorem Block.respond_busy (b : Block) (r : Response) :
    (b.respond r).busy = b.busy := rfl
@[simp] theorem Block.respond_curOp (b : Block) (r : Response) :
    (b.respond r).curOp = b.curOp := rfl
@[simp] theorem Block.respond_lenReg (b : Block) (r : Response) :
    (b.respond r).lenReg = b.lenReg := rfl
@[simp] theorem Block.respond_funcReg (b : Block) (r : Response) :
    (b.respond r).funcReg = b.funcReg := rfl
@[simp] theorem Block.respond_a1Reg (b : Block) (r : Response) :
    (b.respond r).a1Reg = b.a1Reg := rfl
@[simp] theorem Block.respond_a2Reg (b : Block) (r : Response) :
    (b.respond r).a2Reg = b.a2Reg := rfl
@[simp] theorem Block.respond_payBuf (b : Block) (r : Response) :
    (b.respond r).payBuf = b.payBuf := rfl
@[simp] theorem Block.respond_payCnt (b : Block) (r : Response) :
    (b.respond r).payCnt = b.payCnt := rfl
@[simp] theorem Block.respond_rxAcc (b : Block) (r : Response) :
    (b.respond r).rxAcc = b.rxAcc := rfl
@[simp] theorem Block.respond_crcRxLo (b : Block) (r : Response) :
    (b.respond r).crcRxLo = b.crcRxLo := rfl
@[simp] theorem Block.respond_pktValid (b : Block) (r : Response) :
    (b.respond r).pktValid = b.pktValid := rfl
@[simp] theorem Block.respond_lastResult (b : Block) (r : Response) :
    (b.respond r).lastResult = b.lastResult := rfl
@[simp] theorem Block.respond_lastCrcCalc (b : Block) (r : Response) :
    (b.respond r).lastCrcCalc = b.lastCrcCalc := rfl
@[simp] theorem Block.respond_lastCrcRecv (b : Block) (r : Response) :
    (b.respond r).lastCrcRecv = b.lastCrcRecv := rfl
@[simp] theorem Block.respond_respPort (b : Block) (r : Response) :
    (b.respond r).respPort = b.respPort ++ [r] := rfl
@[simp] theorem Block.respond_logPort (b : Block) (r : Response) :
    (b.respond r).logPort = b.logPort := rfl

@[simp] theorem Block.log_rxState (b : Block) (r : LogRecord) :
    (b.log r).rxState = b.rxState := rfl
@[simp] theorem Block.log_busy (b : Block) (r : LogRecord) :
    (b.log r).busy = b.busy := rfl
@[simp] theorem Block.log_curOp (b : Block) (r : LogRecord) :
    (b.log r).curOp = b.curOp := rfl
@[simp] theorem Block.log_lenReg (b : Block) (r : LogRecord) :
    (b.log r).lenReg = b.lenReg := rfl
@[simp] theorem Block.log_funcReg (b : Block) (r : LogRecord) :
    (b.log r).funcReg = b.funcReg := rfl
@[simp] theorem Block.log_a1Reg (b : Block) (r : LogRecord) :
    (b.log r).a1Reg = b.a1Reg := rfl
@[simp] theorem Block.log_a2Reg (b : Block) (r : LogRecord) :
    (b.log r).a2Reg = b.a2Reg := rfl
@[simp] theorem Block.log_payBuf (b : Block) (r : LogRecord) :
    (b.log r).payBuf = b.payBuf := rfl
@[simp] theorem Block.log_payCnt (b : Block) (r : LogRecord) :
    (b.log r).payCnt = b.payCnt := rfl
@[simp] theorem Block.log_rxAcc (b : Block) (r : LogRecord) :
    (b.log r).rxAcc = b.rxAcc := rfl
@[simp] theorem Block.log_crcRxLo (b : Block) (r : LogRecord) :
    (b.log r).crcRxLo = b.crcRxLo := rfl
@[simp] theorem Block.log_pktValid (b : Block) (r : LogRecord) :
    (b.log r).pktValid = b.pktValid := rfl
@[simp] theorem Block.log_lastResult (b : Block) (r : LogRecord) :
    (b.log r).lastResult = b.lastResult := rfl
@[simp] theorem Block.log_lastCrcCalc (b : Block) (r : LogRecord) :
    (b.log r).lastCrcCalc = b.lastCrcCalc := rfl
@[simp] theorem Block.log_lastCrcRecv (b : Block) (r : LogRecord) :
    (b.log r).lastCrcRecv = b.lastCrcRecv := rfl
@[simp] theorem Block.log_respPort (b : Block) (r : LogRecord) :
    (b.log r).respPort = b.respPort := rfl
@[simp] theorem Block.log_logPort (b : Block) (r : LogRecord) :
    (b.log r).logPort = b.logPort ++ [r] := rfl

@[simp] theorem Block.finish_rxState (b : Block) (st : Status) :
    (b.finish st).rxState = 0 := rfl
@[simp] theorem Block.finish_busy (b : Block) (st : Status) :
    (b.finish st).busy = false := rfl
@[simp] theorem Block.finish_curOp (b : Block) (st : Status) :
    (b.finish st).curOp = 0 := rfl
@[simp] theorem Block.finish_lenReg (b : Block) (st : Status) :
    (b.finish st).lenReg = b.lenReg := rfl
@[simp] theorem Block.finish_funcReg (b : Block) (st : Status) :
    (b.finish st).funcReg = b.funcReg := rfl
@[simp] theorem Block.finish_a1Reg (b : Block) (st : Status) :
    (b.finish st).a1Reg = b.a1Reg := rfl
@[simp] theorem Block.finish_a2Reg (b : Block) (st : Status) :
    (b.finish st).a2Reg = b.a2Reg := rfl
@[simp] theorem Block.finish_payBuf (b : Block) (st : Status) :
    (b.finish st).payBuf = b.payBuf := rfl
@[simp] theorem Block.finish_payCnt (b : Block) (st : Status) :
    (b.finish st).payCnt = b.payCnt := rfl
@[simp] theorem Block.finish_rxAcc (b : Block) (st : Status) :
    (b.finish st).rxAcc = b.rxAcc := rfl
@[simp] theorem Block.finish_crcRxLo (b : Block) (st : Status) :
    (b.finish st).crcRxLo = b.crcRxLo := rfl
@[simp] theorem Block.finish_pktValid (b : Block) (st : Status) :
    (b.finish st).pktValid = b.pktValid := rfl
@[simp] theorem Block.finish_lastResult (b : Block) (st : Status) :
    (b.finish st).lastResult = st := rfl
@[simp] theorem Block.finish_lastCrcCalc (b : Block) (st : Status) :
    (b.finish st).lastCrcCalc = b.lastCrcCalc := rfl
@[simp] theorem Block.finish_lastCrcRecv (b : Block) (st : Status) :
    (b.finish st).lastCrcRecv = b.lastCrcRecv := rfl
@[simp] theorem Block.finish_respPort (b : Block) (st : Status) :
    (b.finish st).respPort = b.respPort ++ [.read st (if st = .packetOk then some b.packet else none)] := rfl
@[simp] theorem Block.finish_logPort (b : Block) (st : Status) :
    (b.finish st).logPort = b.logPort := rfl

@[simp] theorem State.setBlock_config (s : State) (b : Block) :
    (s.setBlock b).config = s.config := rfl
@[simp] theorem State.setBlock_block (s : State) (b : Block) :
    (s.setBlock b).block = b := rfl
@[simp] theorem State.setBlock_cmdPort (s : State) (b : Block) :
    (s.setBlock b).cmdPort = s.cmdPort := rfl
@[simp] theorem State.setBlock_cancel (s : State) (b : Block) :
    (s.setBlock b).cancel = s.cancel := rfl
@[simp] theorem State.setBlock_rst (s : State) (b : Block) :
    (s.setBlock b).rst = s.rst := rfl
@[simp] theorem State.setBlock_rxBytes (s : State) (b : Block) :
    (s.setBlock b).rxBytes = s.rxBytes := rfl
@[simp] theorem State.setBlock_rxEof (s : State) (b : Block) :
    (s.setBlock b).rxEof = s.rxEof := rfl
@[simp] theorem State.setBlock_host (s : State) (b : Block) :
    (s.setBlock b).host = s.host := rfl
@[simp] theorem State.setBlock_turns (s : State) (b : Block) :
    (s.setBlock b).turns = s.turns := rfl

@[simp] theorem State.setHost_config (s : State) (h : HostSide) :
    (s.setHost h).config = s.config := rfl
@[simp] theorem State.setHost_block (s : State) (h : HostSide) :
    (s.setHost h).block = s.block := rfl
@[simp] theorem State.setHost_cmdPort (s : State) (h : HostSide) :
    (s.setHost h).cmdPort = s.cmdPort := rfl
@[simp] theorem State.setHost_cancel (s : State) (h : HostSide) :
    (s.setHost h).cancel = s.cancel := rfl
@[simp] theorem State.setHost_rst (s : State) (h : HostSide) :
    (s.setHost h).rst = s.rst := rfl
@[simp] theorem State.setHost_rxBytes (s : State) (h : HostSide) :
    (s.setHost h).rxBytes = s.rxBytes := rfl
@[simp] theorem State.setHost_rxEof (s : State) (h : HostSide) :
    (s.setHost h).rxEof = s.rxEof := rfl
@[simp] theorem State.setHost_host (s : State) (h : HostSide) :
    (s.setHost h).host = h := rfl
@[simp] theorem State.setHost_turns (s : State) (h : HostSide) :
    (s.setHost h).turns = s.turns := rfl

@[simp] theorem State.respond_config (s : State) (r : Response) :
    (s.respond r).config = s.config := rfl
@[simp] theorem State.respond_block (s : State) (r : Response) :
    (s.respond r).block = s.block.respond r := rfl
@[simp] theorem State.respond_cmdPort (s : State) (r : Response) :
    (s.respond r).cmdPort = s.cmdPort := rfl
@[simp] theorem State.respond_cancel (s : State) (r : Response) :
    (s.respond r).cancel = s.cancel := rfl
@[simp] theorem State.respond_rst (s : State) (r : Response) :
    (s.respond r).rst = s.rst := rfl
@[simp] theorem State.respond_rxBytes (s : State) (r : Response) :
    (s.respond r).rxBytes = s.rxBytes := rfl
@[simp] theorem State.respond_rxEof (s : State) (r : Response) :
    (s.respond r).rxEof = s.rxEof := rfl
@[simp] theorem State.respond_host (s : State) (r : Response) :
    (s.respond r).host = s.host := rfl
@[simp] theorem State.respond_turns (s : State) (r : Response) :
    (s.respond r).turns = s.turns := rfl

@[simp] theorem State.putCommand_config (s : State) (c : Command) :
    (s.putCommand c).config = s.config := rfl
@[simp] theorem State.putCommand_block (s : State) (c : Command) :
    (s.putCommand c).block = s.block := rfl
@[simp] theorem State.putCommand_cmdPort (s : State) (c : Command) :
    (s.putCommand c).cmdPort = s.cmdPort ++ [c] := rfl
@[simp] theorem State.putCommand_cancel (s : State) (c : Command) :
    (s.putCommand c).cancel = s.cancel := rfl
@[simp] theorem State.putCommand_rst (s : State) (c : Command) :
    (s.putCommand c).rst = s.rst := rfl
@[simp] theorem State.putCommand_rxBytes (s : State) (c : Command) :
    (s.putCommand c).rxBytes = s.rxBytes := rfl
@[simp] theorem State.putCommand_rxEof (s : State) (c : Command) :
    (s.putCommand c).rxEof = s.rxEof := rfl
@[simp] theorem State.putCommand_host (s : State) (c : Command) :
    (s.putCommand c).host = s.host := rfl
@[simp] theorem State.putCommand_turns (s : State) (c : Command) :
    (s.putCommand c).turns = s.turns := rfl

@[simp] theorem State.goTo_config (s : State) (pt : ProgramPoint) :
    (s.goTo pt).config = s.config := rfl
@[simp] theorem State.goTo_block (s : State) (pt : ProgramPoint) :
    (s.goTo pt).block = s.block := rfl
@[simp] theorem State.goTo_cmdPort (s : State) (pt : ProgramPoint) :
    (s.goTo pt).cmdPort = s.cmdPort := rfl
@[simp] theorem State.goTo_cancel (s : State) (pt : ProgramPoint) :
    (s.goTo pt).cancel = s.cancel := rfl
@[simp] theorem State.goTo_rst (s : State) (pt : ProgramPoint) :
    (s.goTo pt).rst = s.rst := rfl
@[simp] theorem State.goTo_rxBytes (s : State) (pt : ProgramPoint) :
    (s.goTo pt).rxBytes = s.rxBytes := rfl
@[simp] theorem State.goTo_rxEof (s : State) (pt : ProgramPoint) :
    (s.goTo pt).rxEof = s.rxEof := rfl
@[simp] theorem State.goTo_host (s : State) (pt : ProgramPoint) :
    (s.goTo pt).host = { s.host with point := pt } := rfl
@[simp] theorem State.goTo_turns (s : State) (pt : ProgramPoint) :
    (s.goTo pt).turns = s.turns := rfl

@[simp] theorem State.lowerInputs_config (s : State) :
    (s.lowerInputs).config = s.config := rfl
@[simp] theorem State.lowerInputs_block (s : State) :
    (s.lowerInputs).block = s.block := rfl
@[simp] theorem State.lowerInputs_cmdPort (s : State) :
    (s.lowerInputs).cmdPort = s.cmdPort := rfl
@[simp] theorem State.lowerInputs_cancel (s : State) :
    (s.lowerInputs).cancel = false := rfl
@[simp] theorem State.lowerInputs_rst (s : State) :
    (s.lowerInputs).rst = false := rfl
@[simp] theorem State.lowerInputs_rxBytes (s : State) :
    (s.lowerInputs).rxBytes = s.rxBytes := rfl
@[simp] theorem State.lowerInputs_rxEof (s : State) :
    (s.lowerInputs).rxEof = s.rxEof := rfl
@[simp] theorem State.lowerInputs_host (s : State) :
    (s.lowerInputs).host = s.host := rfl
@[simp] theorem State.lowerInputs_turns (s : State) :
    (s.lowerInputs).turns = s.turns := rfl

@[simp] theorem State.writeTx_config (s : State) (bytes : List Byte) :
    (s.writeTx bytes).config = s.config := rfl
@[simp] theorem State.writeTx_block (s : State) (bytes : List Byte) :
    (s.writeTx bytes).block = s.block := rfl
@[simp] theorem State.writeTx_cmdPort (s : State) (bytes : List Byte) :
    (s.writeTx bytes).cmdPort = s.cmdPort := rfl
@[simp] theorem State.writeTx_cancel (s : State) (bytes : List Byte) :
    (s.writeTx bytes).cancel = s.cancel := rfl
@[simp] theorem State.writeTx_rst (s : State) (bytes : List Byte) :
    (s.writeTx bytes).rst = s.rst := rfl
@[simp] theorem State.writeTx_rxBytes (s : State) (bytes : List Byte) :
    (s.writeTx bytes).rxBytes = s.rxBytes := rfl
@[simp] theorem State.writeTx_rxEof (s : State) (bytes : List Byte) :
    (s.writeTx bytes).rxEof = s.rxEof := rfl
@[simp] theorem State.writeTx_host (s : State) (bytes : List Byte) :
    (s.writeTx bytes).host = { s.host with tx := s.host.tx ++ [bytes] } := rfl
@[simp] theorem State.writeTx_turns (s : State) (bytes : List Byte) :
    (s.writeTx bytes).turns = s.turns := rfl

@[simp] theorem State.deliver_config (s : State) (e : Event) :
    (s.deliver e).config = s.config := rfl
@[simp] theorem State.deliver_block (s : State) (e : Event) :
    (s.deliver e).block = s.block := rfl
@[simp] theorem State.deliver_cmdPort (s : State) (e : Event) :
    (s.deliver e).cmdPort = s.cmdPort := rfl
@[simp] theorem State.deliver_cancel (s : State) (e : Event) :
    (s.deliver e).cancel = s.cancel := rfl
@[simp] theorem State.deliver_rst (s : State) (e : Event) :
    (s.deliver e).rst = s.rst := rfl
@[simp] theorem State.deliver_rxBytes (s : State) (e : Event) :
    (s.deliver e).rxBytes = s.rxBytes := rfl
@[simp] theorem State.deliver_rxEof (s : State) (e : Event) :
    (s.deliver e).rxEof = s.rxEof := rfl
@[simp] theorem State.deliver_host (s : State) (e : Event) :
    (s.deliver e).host = { s.host with sink := s.host.sink ++ [e] } := rfl
@[simp] theorem State.deliver_turns (s : State) (e : Event) :
    (s.deliver e).turns = s.turns := rfl

@[simp] theorem State.issue_config (s : State) (c : Command) (pt : ProgramPoint) :
    (s.issue c pt).config = s.config := rfl
@[simp] theorem State.issue_block (s : State) (c : Command) (pt : ProgramPoint) :
    (s.issue c pt).block = s.block := rfl
@[simp] theorem State.issue_cmdPort (s : State) (c : Command) (pt : ProgramPoint) :
    (s.issue c pt).cmdPort = s.cmdPort ++ [c] := rfl
@[simp] theorem State.issue_cancel (s : State) (c : Command) (pt : ProgramPoint) :
    (s.issue c pt).cancel = s.cancel := rfl
@[simp] theorem State.issue_rst (s : State) (c : Command) (pt : ProgramPoint) :
    (s.issue c pt).rst = s.rst := rfl
@[simp] theorem State.issue_rxBytes (s : State) (c : Command) (pt : ProgramPoint) :
    (s.issue c pt).rxBytes = s.rxBytes := rfl
@[simp] theorem State.issue_rxEof (s : State) (c : Command) (pt : ProgramPoint) :
    (s.issue c pt).rxEof = s.rxEof := rfl
@[simp] theorem State.issue_host (s : State) (c : Command) (pt : ProgramPoint) :
    (s.issue c pt).host = { s.host with point := pt } := rfl
@[simp] theorem State.issue_turns (s : State) (c : Command) (pt : ProgramPoint) :
    (s.issue c pt).turns = s.turns := rfl

@[simp] theorem State.readResponses_config (s : State) :
    (s.readResponses).config = s.config := rfl
@[simp] theorem State.readResponses_block (s : State) :
    (s.readResponses).block = { s.block with respPort := [] } := rfl
@[simp] theorem State.readResponses_cmdPort (s : State) :
    (s.readResponses).cmdPort = s.cmdPort := rfl
@[simp] theorem State.readResponses_cancel (s : State) :
    (s.readResponses).cancel = s.cancel := rfl
@[simp] theorem State.readResponses_rst (s : State) :
    (s.readResponses).rst = s.rst := rfl
@[simp] theorem State.readResponses_rxBytes (s : State) :
    (s.readResponses).rxBytes = s.rxBytes := rfl
@[simp] theorem State.readResponses_rxEof (s : State) :
    (s.readResponses).rxEof = s.rxEof := rfl
@[simp] theorem State.readResponses_host (s : State) :
    (s.readResponses).host = { s.host with seen := s.host.seen ++ s.block.respPort.map .response } := rfl
@[simp] theorem State.readResponses_turns (s : State) :
    (s.readResponses).turns = s.turns := rfl

@[simp] theorem State.frameSent_config (s : State) (r : SensorReg) (bytes : List Byte) :
    (s.frameSent r bytes).config = s.config := rfl
@[simp] theorem State.frameSent_block (s : State) (r : SensorReg) (bytes : List Byte) :
    (s.frameSent r bytes).block = s.block := rfl
@[simp] theorem State.frameSent_cmdPort (s : State) (r : SensorReg) (bytes : List Byte) :
    (s.frameSent r bytes).cmdPort = s.cmdPort := rfl
@[simp] theorem State.frameSent_cancel (s : State) (r : SensorReg) (bytes : List Byte) :
    (s.frameSent r bytes).cancel = s.cancel := rfl
@[simp] theorem State.frameSent_rst (s : State) (r : SensorReg) (bytes : List Byte) :
    (s.frameSent r bytes).rst = s.rst := rfl
@[simp] theorem State.frameSent_rxBytes (s : State) (r : SensorReg) (bytes : List Byte) :
    (s.frameSent r bytes).rxBytes = s.rxBytes := rfl
@[simp] theorem State.frameSent_rxEof (s : State) (r : SensorReg) (bytes : List Byte) :
    (s.frameSent r bytes).rxEof = s.rxEof := rfl
@[simp] theorem State.frameSent_host (s : State) (r : SensorReg) (bytes : List Byte) :
    (s.frameSent r bytes).host =
      { s.host with tx := s.host.tx ++ [bytes], sends := s.host.sends + 1, point := .handshakeRead r } := rfl
@[simp] theorem State.frameSent_turns (s : State) (r : SensorReg) (bytes : List Byte) :
    (s.frameSent r bytes).turns = s.turns := rfl

@[simp] theorem State.appendEof_config (s : State) :
    (s.appendEof).config = s.config := rfl
@[simp] theorem State.appendEof_block (s : State) :
    (s.appendEof).block = s.block := rfl
@[simp] theorem State.appendEof_cmdPort (s : State) :
    (s.appendEof).cmdPort = s.cmdPort := rfl
@[simp] theorem State.appendEof_cancel (s : State) :
    (s.appendEof).cancel = s.cancel := rfl
@[simp] theorem State.appendEof_rst (s : State) :
    (s.appendEof).rst = s.rst := rfl
@[simp] theorem State.appendEof_rxBytes (s : State) :
    (s.appendEof).rxBytes = s.rxBytes := rfl
@[simp] theorem State.appendEof_rxEof (s : State) :
    (s.appendEof).rxEof = true := rfl
@[simp] theorem State.appendEof_host (s : State) :
    (s.appendEof).host = s.host := rfl
@[simp] theorem State.appendEof_turns (s : State) :
    (s.appendEof).turns = s.turns := rfl

end Sys2Proof.Machine
end

