-- ==== Sys2Proof/Laws/Ops.lean ====
section
/-!
SUPPORT. The laws of the shared operations: the payload buffer (read after write, canonical form, slices), the byte
helpers, StreamRead, and the inversion of a command decode.
-/

namespace Sys2Proof

@[simp] theorem byteLo_half (lo hi : Byte) : byteLo (half lo hi) = lo := by
  ext i h; simp [byteLo, half, h]; omega

@[simp] theorem byteHi_half (lo hi : Byte) : byteHi (half lo hi) = hi := by
  ext i h
  have h' : 8 + i < 16 := by omega
  simp [byteHi, half, h, h']

@[simp] theorem half_byteLo_byteHi (h : Half) : half (byteLo h) (byteHi h) = h := by
  ext i hi
  by_cases h8 : i < 8
  · simp [half, byteLo, byteHi, hi, h8]
  · have h8' : i - 8 < 8 := by omega
    simp [half, byteLo, byteHi, hi, h8, h8', show 8 + (i - 8) = i by omega]

end Sys2Proof

namespace Sys2Proof.Machine

theorem Memory.read_of_lt {m : Memory} {k : Nat} (h : ∀ c ∈ m, k < c.1) : Memory.read m k = payFill := by
  induction m with
  | nil => rfl
  | cons c m ih =>
    obtain ⟨a, b⟩ := c
    have ha : k < a := h (a, b) (by simp)
    have := ih (fun c hc => h c (by simp [hc]))
    simp only [Memory.read, this]
    split <;> first | omega | rfl

theorem Memory.read_write_same {m : Memory} (hm : Memory.wf m) (k : Nat) (v : Byte) :
    Memory.read (Memory.write m k v) k = v := by
  induction m with
  | nil => unfold Memory.write; split <;> simp_all [Memory.read]
  | cons c m ih =>
    obtain ⟨a, b⟩ := c
    obtain ⟨hs, hc⟩ := hm
    rw [List.pairwise_cons] at hs
    have hm' : Memory.wf m := ⟨hs.2, fun c h => hc c (by simp [h])⟩
    unfold Memory.write
    split
    · rename_i hlt
      split
      · rename_i hv
        rw [hv]
        refine Memory.read_of_lt (fun c h => ?_)
        rcases List.mem_cons.1 h with rfl | h
        · exact hlt
        · exact lt_trans hlt (hs.1 c h)
      · simp [Memory.read]
    · split
      · rename_i _ heq
        subst heq
        split
        · rename_i hv
          rw [hv]
          exact Memory.read_of_lt (fun c h => hs.1 c h)
        · simp [Memory.read]
      · rename_i h1 h2
        simp only [Memory.read]
        rw [if_neg (by omega)]
        exact ih hm'

theorem Memory.read_write_other (m : Memory) {k j : Nat} (v : Byte) (h : j ≠ k) :
    Memory.read (Memory.write m k v) j = Memory.read m j := by
  induction m with
  | nil => unfold Memory.write; split <;> simp [Memory.read, Ne.symm h]
  | cons c m ih =>
    obtain ⟨a, b⟩ := c
    unfold Memory.write
    split
    · split
      · rfl
      · simp [Memory.read, Ne.symm h]
    · split
      · rename_i _ heq
        subst heq
        split <;> simp [Memory.read, Ne.symm h]
      · simp [Memory.read, ih]

theorem Memory.mem_write {m : Memory} {k : Nat} {v : Byte} {c : Host.Cell} (h : c ∈ Memory.write m k v) :
    c ∈ m ∨ (c = (k, v) ∧ v ≠ payFill) := by
  induction m with
  | nil =>
    unfold Memory.write at h
    split at h <;> simp_all
  | cons d m ih =>
    obtain ⟨a, b⟩ := d
    unfold Memory.write at h
    split at h
    · split at h <;> simp_all
      tauto
    · split at h
      · split at h <;> simp_all
        tauto
      · rcases List.mem_cons.1 h with h | h
        · exact .inl (by simp [h])
        · rcases ih h with h | h
          · exact .inl (by simp [h])
          · exact .inr h

theorem Memory.write_wf {m : Memory} (hm : Memory.wf m) {k : Nat} (hk : k < paySize) (v : Byte) :
    (Memory.write m k v).wf := by
  refine ⟨?_, fun c hc => ?_⟩
  · induction m with
    | nil => unfold Memory.write; split <;> simp
    | cons d m ih =>
      obtain ⟨a, b⟩ := d
      obtain ⟨hs, hc⟩ := hm
      have hs' := hs
      rw [List.pairwise_cons] at hs
      have hm' : Memory.wf m := ⟨hs.2, fun c h => hc c (by simp [h])⟩
      unfold Memory.write
      split
      · rename_i hlt
        split
        · exact hs'
        · refine List.pairwise_cons.2 ⟨fun c h => ?_, hs'⟩
          rcases List.mem_cons.1 h with rfl | h
          · exact hlt
          · exact lt_trans hlt (hs.1 c h)
      · split
        · rename_i _ heq
          subst heq
          split
          · exact hs.2
          · exact List.pairwise_cons.2 ⟨hs.1, hs.2⟩
        · rename_i h1 h2
          refine List.pairwise_cons.2 ⟨fun c h => ?_, ih hm'⟩
          rcases Memory.mem_write h with h | ⟨rfl, -⟩
          · exact hs.1 c h
          · show a < k
            omega
  · rcases Memory.mem_write hc with h | ⟨rfl, hv⟩
    · exact hm.2 c h
    · exact ⟨hk, hv⟩

@[simp] theorem Memory.length_slice (m : Memory) (i n : Nat) : (Memory.slice m i n).length = n := by
  induction n generalizing i with
  | zero => rfl
  | succ n ih => simp [Memory.slice, ih]

theorem Memory.slice_succ (m : Memory) (i n : Nat) :
    Memory.slice m i (n + 1) = Memory.slice m i n ++ [Memory.read m (i + n)] := by
  induction n generalizing i with
  | zero => rfl
  | succ n ih =>
    rw [Memory.slice, ih, Memory.slice, List.cons_append]
    congr 4
    omega

theorem Memory.slice_write_other (m : Memory) {k i n : Nat} (v : Byte) (h : k < i ∨ i + n ≤ k) :
    Memory.slice (Memory.write m k v) i n = Memory.slice m i n := by
  induction n generalizing i with
  | zero => rfl
  | succ n ih =>
    rw [Memory.slice, Memory.slice, Memory.read_write_other m v (by omega), ih (by omega)]

/-- Storing payload byte `k` appends it to the payload bytes stored so far (R26, R111). -/
theorem Memory.slice_write_next {m : Memory} (hm : Memory.wf m) (k : Nat) (v : Byte) :
    Memory.slice (Memory.write m k v) 0 (k + 1) = Memory.slice m 0 k ++ [v] := by
  rw [Memory.slice_succ, Memory.slice_write_other m v (by omega), Nat.zero_add, Memory.read_write_same hm]

/-- StreamRead in full: a byte is removed, the end mark is not, an empty stream gives nothing (R12, R42, R43). -/
theorem State.streamRead_cases (s : State) :
    (∃ b rest, s.rxBytes = b :: rest ∧ s.streamRead = (.byte b, { s with rxBytes := rest })) ∨
    (s.rxBytes = [] ∧ s.rxEof = true ∧ s.streamRead = (.eof, s)) ∨
    (s.rxBytes = [] ∧ s.rxEof = false ∧ s.streamRead = (.nothing, s)) := by
  cases h : s.rxBytes with
  | nil => cases he : s.rxEof <;> simp [State.streamRead, h, he]
  | cons b rest => exact .inl ⟨b, rest, by simp [State.streamRead, h]⟩

@[simp] theorem rxPhase_code (ph : RxPhase) : rxPhase ph.code = some ph := by cases ph <;> rfl

/-- A value of `rx_state` above 9 names no state (R22); every other value is a named state's code. -/
theorem rxPhase_eq_some {v : BitVec 4} {ph : RxPhase} (h : rxPhase v = some ph) : v = ph.code := by
  revert v ph; decide

theorem rxPhase_eq_none {v : BitVec 4} : rxPhase v = none ↔ 9 < v.toNat := by revert v; decide

/-- No model fault: `rx_state` is 0 to 9 and the other invariants of R40 hold (R22, R162). -/
theorem Block.modelFault_eq_none {b : Block} : b.modelFault = none ↔ b.rxState.toNat ≤ 9 ∧ b.Coherent := by
  unfold Block.modelFault
  split
  · simp only [reduceCtorEq, false_iff]
    omega
  · split
    · simp only [true_iff]
      exact ⟨by omega, by assumption⟩
    · simp only [reduceCtorEq, false_iff]
      exact fun h => absurd h.2 (by assumption)

/-- A running READ_PACKET's item step in full (R101): the stream is empty and it holds, the stream has ended, or one
byte is taken by the rule of the state. -/
theorem rxItem_cases {s t : State} (h : rxItem s = .next t) :
    ∃ ph, s.block.rxState = ph.code ∧ ph ≠ .idle ∧
      ((s.rxBytes = [] ∧ s.rxEof = false ∧ t = s) ∨
       (s.rxBytes = [] ∧ s.rxEof = true ∧ t = s.setBlock (rxEnd s.block)) ∨
       (∃ b rest, s.rxBytes = b :: rest ∧
          t = { s with rxBytes := rest, block := rxByte s.config.crc ph s.block b })) := by
  unfold rxItem at h
  split at h
  · cases h
  · cases h
  · rename_i ph hne hph
    refine ⟨ph, rxPhase_eq_some hph, hne, ?_⟩
    rcases State.streamRead_cases s with ⟨b, rest, hb, hr⟩ | ⟨hb, he, hr⟩ | ⟨hb, he, hr⟩ <;>
      rw [hr] at h <;> cases h
    · exact .inr (.inr ⟨b, rest, hb, rfl⟩)
    · exact .inr (.inl ⟨hb, he, rfl⟩)
    · exact .inl ⟨hb, he, rfl⟩

/-- Taking a command in full (R16, R69). -/
theorem commandTurn_cases (s : State) :
    (s.cmdPort = [] ∧ commandTurn s = .next s) ∨
    (∃ c rest i, s.cmdPort = c :: rest ∧ decodeCommand c = .ok i ∧
      commandTurn s = exec i { s with cmdPort := rest }) ∨
    (∃ c rest e, s.cmdPort = c :: rest ∧ decodeCommand c = .error e ∧
      commandTurn s = .refused (.commandRefused e)) := by
  cases h : s.cmdPort with
  | nil => exact .inl ⟨rfl, by simp [commandTurn, h]⟩
  | cons c rest =>
    cases hd : decodeCommand c with
    | ok i => exact .inr (.inl ⟨c, rest, i, rfl, hd, by simp [commandTurn, h, hd]⟩)
    | error e => exact .inr (.inr ⟨c, rest, e, rfl, hd, by simp [commandTurn, h, hd]⟩)

/-- The block's step in full (R101, R164): reset, cancel, a stream item, or a command. -/
theorem blockTurn_cases (s : State) :
    (s.rst = true ∧ blockTurn s = exec .rst s.lowerInputs) ∨
    (s.rst = false ∧ s.cancel = true ∧ s.block.busy = true ∧ blockTurn s = exec .cancel s.lowerInputs) ∨
    (s.rst = false ∧ s.cancel = false ∧ s.block.busy = true ∧ blockTurn s = rxItem s.lowerInputs) ∨
    (s.rst = false ∧ s.block.busy = false ∧ blockTurn s = commandTurn s.lowerInputs) := by
  cases hr : s.rst <;> cases hc : s.cancel <;> cases hb : s.block.busy <;>
    simp [blockTurn, decodeSideband, hr, hc, hb]

/-- A step of the machine in full: it starts where no model fault shows, and makes the next move (R6, R162). -/
theorem step_next {s t : State} (h : step s = .next t) :
    s.block.modelFault = none ∧
      ((s.turns = [] ∧ s.blockEnabled = true ∧ blockTurn s = .next t) ∨
       (s.turns = [] ∧ s.blockEnabled = false ∧ programTurn s = .next t) ∨
       (∃ turn rest, s.turns = turn :: rest ∧ agentTurn turn { s with turns := rest } = .next t)) := by
  unfold step stepMachine at h
  split at h
  · cases h
  · rename_i hm
    refine ⟨hm, ?_⟩
    unfold nextTurn at h
    split at h
    · rename_i ht
      unfold defaultTurn at h
      cases he : s.blockEnabled <;> simp [he] at h
      · exact .inr (.inl ⟨ht, rfl, h⟩)
      · exact .inl ⟨ht, rfl, h⟩
    · rename_i turn rest ht
      exact .inr (.inr ⟨turn, rest, ht, h⟩)

/-- A command the decoder accepts writes at most one response: it leaves the command port, the stream, the host's side,
the parameters, the turns and the log as they are (R16, R32, R52). -/
theorem exec_command_frame {c : Command} {i : Instr} {s t : State} (h : decodeCommand c = .ok i)
    (he : exec i s = .next t) :
    t.cmdPort = s.cmdPort ∧ t.host = s.host ∧ t.config = s.config ∧ t.turns = s.turns ∧ t.rxEof = s.rxEof ∧
      t.rxBytes = s.rxBytes ∧ t.block.logPort = s.block.logPort ∧
      (t.block = { s.block with
          busy := true, curOp := 3, pktValid := false, payCnt := 0, rxState := RxPhase.hunt.code } ∨
       ∃ r, t.block = s.block.respond r) := by
  unfold decodeCommand at h
  repeat' split at h
  all_goals cases h
  all_goals simp only [exec] at he
  · cases he
    exact ⟨rfl, rfl, rfl, rfl, rfl, rfl, rfl, .inr ⟨_, rfl⟩⟩
  · unfold execEncode at he
    split at he <;> cases he
    exact ⟨rfl, rfl, rfl, rfl, rfl, rfl, rfl, .inr ⟨_, rfl⟩⟩
  · cases he
    exact ⟨rfl, rfl, rfl, rfl, rfl, rfl, rfl, .inl rfl⟩
  · unfold execDecode at he
    split at he <;> cases he <;> exact ⟨rfl, rfl, rfl, rfl, rfl, rfl, rfl, .inr ⟨_, rfl⟩⟩

/-- A command the decoder accepts does not touch the sideband inputs. -/
theorem exec_command_inputs {c : Command} {i : Instr} {s t : State} (h : decodeCommand c = .ok i)
    (he : exec i s = .next t) : t.rst = s.rst ∧ t.cancel = s.cancel := by
  unfold decodeCommand at h
  repeat' split at h
  all_goals cases h
  all_goals simp only [exec] at he
  · cases he
    exact ⟨rfl, rfl⟩
  · unfold execEncode at he
    split at he <;> cases he
    exact ⟨rfl, rfl⟩
  · cases he
    exact ⟨rfl, rfl⟩
  · unfold execDecode at he
    split at he <;> cases he <;> exact ⟨rfl, rfl⟩

/-- The program's own response, when there is one (assumption 12). -/
theorem State.ownResponse_some {s s' : State} {r : Response} (h : s.ownResponse = some (r, s')) :
    s.cmdPort = [] ∧ s.block.busy = false ∧ s.block.respPort.getLast? = some r ∧ s' = s.readResponses := by
  unfold State.ownResponse at h
  split at h
  · rename_i hc
    split at h
    · rename_i hr
      cases h
      exact ⟨hc.1, hc.2, hr, rfl⟩
    · cases h
  · cases h

end Sys2Proof.Machine
end

