-- ==== Sys2Proof/Laws/Agents.lean ====
section
/-!
SUPPORT. What each agent's move can change, said once: the host's program, and every turn that is not the block's. The
block's own step is in Laws/Ops.lean (blockTurn_cases, rxItem_cases, commandTurn_cases).
-/

namespace Sys2Proof.Machine

/-- What a move of another agent than the block leaves alone: the parameters, the turns still listed, and of the block
everything but the records on its two ports (R34, R38). -/
structure OnlyPorts (s t : State) : Prop where
  config : t.config = s.config
  turns : t.turns = s.turns
  block : ∃ rp lp, t.block = { s.block with respPort := rp, logPort := lp }

theorem OnlyPorts.ofHost {s t : State} (hc : t.config = s.config) (ht : t.turns = s.turns) (hb : t.block = s.block) :
    OnlyPorts s t := ⟨hc, ht, ⟨s.block.respPort, s.block.logPort, hb⟩⟩

/-- What the host's program leaves alone besides: the stream and the sideband inputs (R45, R75). -/
structure OnlyHost (s t : State) : Prop extends OnlyPorts s t where
  rxBytes : t.rxBytes = s.rxBytes
  rxEof : t.rxEof = s.rxEof
  rst : t.rst = s.rst
  cancel : t.cancel = s.cancel

theorem OnlyHost.refl (s : State) : OnlyHost s s := ⟨.ofHost rfl rfl rfl, rfl, rfl, rfl, rfl⟩

theorem OnlyHost.trans {s t u : State} (h : OnlyHost s t) (k : OnlyHost t u) : OnlyHost s u := by
  obtain ⟨⟨h1, h2, _, _, h3⟩, h4, h5, h6, h7⟩ := h
  obtain ⟨⟨k1, k2, rp, lp, k3⟩, k4, k5, k6, k7⟩ := k
  exact ⟨⟨k1.trans h1, k2.trans h2, rp, lp, by rw [k3, h3]⟩, k4.trans h4, k5.trans h5, k6.trans h6, k7.trans h7⟩

theorem State.setHost_onlyHost (s : State) (h : HostSide) : OnlyHost s (s.setHost h) :=
  ⟨.ofHost rfl rfl rfl, rfl, rfl, rfl, rfl⟩

theorem State.goTo_onlyHost (s : State) (pt : ProgramPoint) : OnlyHost s (s.goTo pt) := s.setHost_onlyHost _

theorem State.writeTx_onlyHost (s : State) (bytes : List Byte) : OnlyHost s (s.writeTx bytes) := s.setHost_onlyHost _

theorem State.deliver_onlyHost (s : State) (e : Event) : OnlyHost s (s.deliver e) := s.setHost_onlyHost _

theorem State.sinkEvent_onlyHost (s : State) (e : Event) : OnlyHost s (s.sinkEvent e) := by
  unfold State.sinkEvent
  split
  · exact .refl s
  · exact s.deliver_onlyHost e

theorem State.putCommand_onlyHost (s : State) (c : Command) : OnlyHost s (s.putCommand c) :=
  ⟨.ofHost rfl rfl rfl, rfl, rfl, rfl, rfl⟩

theorem State.issue_onlyHost (s : State) (c : Command) (pt : ProgramPoint) : OnlyHost s (s.issue c pt) :=
  (s.putCommand_onlyHost c).trans (State.goTo_onlyHost _ pt)

theorem State.readResponses_onlyHost (s : State) : OnlyHost s s.readResponses :=
  ⟨⟨rfl, rfl, ⟨[], s.block.logPort, rfl⟩⟩, rfl, rfl, rfl, rfl⟩

theorem State.endInitialization_onlyHost (s : State) (r : InitResult) : OnlyHost s (s.endInitialization r) :=
  s.setHost_onlyHost _

theorem State.notAcknowledged_onlyHost (s : State) (r : SensorReg) : OnlyHost s (s.notAcknowledged r) :=
  s.goTo_onlyHost _

theorem State.acknowledged_onlyHost (s : State) (r : SensorReg) (p : List Byte) : OnlyHost s (s.acknowledged r p) := by
  unfold State.acknowledged
  split
  · cases r
    · exact s.setHost_onlyHost _
    · exact s.endInitialization_onlyHost _
  · exact s.goTo_onlyHost _

theorem State.frameSent_onlyHost (s : State) (r : SensorReg) (bytes : List Byte) : OnlyHost s (s.frameSent r bytes) :=
  s.setHost_onlyHost _

theorem State.startProgram_onlyHost (s : State) (p : Program) : OnlyHost s (s.startProgram p) := by
  cases p
  case send => exact s.goTo_onlyHost _
  case readEvent => exact s.goTo_onlyHost _
  case loop => exact s.goTo_onlyHost _
  case initialization => exact s.setHost_onlyHost _
  case session => exact s.setHost_onlyHost _

/-- A `Wait` point: nothing happens, or the program reads the response port and goes on with its own response. -/
theorem onResponse_cases {s : State} {k : Response → State → Result} {t : State} (h : onResponse s k = .next t) :
    t = s ∨ ∃ r, s.ownResponse = some (r, s.readResponses) ∧ k r s.readResponses = .next t := by
  unfold onResponse at h
  split at h
  · cases h
    exact .inl rfl
  · rename_i r s' ho
    obtain rfl := (State.ownResponse_some ho).2.2.2
    exact .inr ⟨r, ho, h⟩

theorem handshakeSend_onlyHost {s t : State} {r : SensorReg} (hp : s.host.point = .handshakeSend r)
    (h : handshakeSend r s = .next t) : OnlyHost s t := by
  unfold handshakeSend at h
  split at h
  · cases h
  · split at h
    · cases h
      exact s.endInitialization_onlyHost _
    · simp only [exec, execSetParam, hp] at h
      cases h
      exact s.issue_onlyHost _ _

theorem handshakeRead_onlyHost {s t : State} {r : SensorReg} {resp : Response} (hp : s.host.point = .handshakeWait r)
    (h : handshakeRead r resp s = .next t) : OnlyHost s t := by
  unfold handshakeRead at h
  split at h
  · cases h; exact s.endInitialization_onlyHost _
  · cases h; exact s.endInitialization_onlyHost _
  · split at h
    · simp only [exec, execSetParamAck, hp] at h
      split at h <;> cases h
      · exact s.acknowledged_onlyHost _ _
      · exact s.notAcknowledged_onlyHost _
    · cases h; exact s.notAcknowledged_onlyHost _
  · cases h; exact s.notAcknowledged_onlyHost _
  · cases h; exact .refl s

theorem loopRead_onlyHost {s t : State} {resp : Response} (h : loopRead resp s = .next t) : OnlyHost s t := by
  unfold loopRead at h
  split at h <;> cases h
  case h_5 => exact .refl s
  all_goals exact s.goTo_onlyHost _

theorem loopDecode_onlyHost {s t : State} {resp : Response} (h : loopDecode resp s = .next t) : OnlyHost s t := by
  unfold loopDecode at h
  split at h
  · split at h <;> cases h
    · exact s.goTo_onlyHost _
    · exact (s.deliver_onlyHost _).trans (State.goTo_onlyHost _ _)
  · cases h; exact .refl s

/-- A step of the host's program changes only the host's side, what it puts on the command port, and the responses it
reads (R75, R139, R142). -/
theorem programTurn_onlyHost {s t : State} (h : programTurn s = .next t) : OnlyHost s t := by
  unfold programTurn at h
  split at h
  case h_1 => cases h; exact .refl s
  case h_2 => cases h; exact s.issue_onlyHost _ _
  case h_4 => cases h; exact s.issue_onlyHost _ _
  case h_6 => cases h; exact s.issue_onlyHost _ _
  case h_8 hp => exact handshakeSend_onlyHost hp h
  case h_10 => cases h; exact s.issue_onlyHost _ _
  case h_12 => cases h; exact s.issue_onlyHost _ _
  case h_14 => cases h; exact s.issue_onlyHost _ _
  all_goals
    rcases onResponse_cases h with rfl | ⟨resp, -, h⟩
    · exact .refl _
    refine s.readResponses_onlyHost.trans ?_
  case h_11.inr hp _ => exact handshakeRead_onlyHost (by simpa [State.readResponses] using hp) h
  case h_13.inr => exact loopRead_onlyHost h
  case h_15.inr => exact loopDecode_onlyHost h
  case h_3.inr => split at h <;> cases h <;>
    first | exact (State.writeTx_onlyHost _ _).trans (State.goTo_onlyHost _ _) | exact .refl _
  case h_9.inr => split at h <;> cases h <;>
    first | exact State.frameSent_onlyHost _ _ _ | exact .refl _
  case h_5.inr => split at h <;> cases h <;> exact State.goTo_onlyHost _ _
  case h_7.inr => split at h <;> cases h <;> exact State.goTo_onlyHost _ _

/-- A turn that is not the block's: of the block it changes only the records on the two ports, and the stream only by
what the stream agent appends (R34, R42, R75). -/
theorem agentTurn_onlyPorts {s t : State} {turn : Turn} (hb : turn ≠ .block) (h : agentTurn turn s = .next t) :
    OnlyPorts s t ∧
      (t.rxBytes = s.rxBytes ∨ ∃ b, t.rxBytes = s.rxBytes ++ [b] ∧ s.rxEof = false) ∧
      (s.rxEof = true → t.rxEof = true) := by
  have free : ∀ {u : State}, OnlyHost s u → s.whenFree u = .next t →
      OnlyPorts s t ∧
      (t.rxBytes = s.rxBytes ∨ ∃ b, t.rxBytes = s.rxBytes ++ [b] ∧ s.rxEof = false) ∧
      (s.rxEof = true → t.rxEof = true) := by
    intro u hu hw
    unfold State.whenFree at hw
    split at hw <;> cases hw
    · exact ⟨.ofHost rfl rfl rfl, .inl rfl, id⟩
    · exact ⟨hu.toOnlyPorts, .inl hu.rxBytes, fun he => hu.rxEof.trans he⟩
  cases turn <;> simp only [agentTurn] at h
  case block => exact absurd rfl hb
  case program =>
    have hu := programTurn_onlyHost h
    exact ⟨hu.toOnlyPorts, .inl hu.rxBytes, fun he => hu.rxEof.trans he⟩
  case streamByte b =>
    cases h
    unfold State.appendByte
    split
    · exact ⟨.ofHost rfl rfl rfl, .inl rfl, id⟩
    · exact ⟨.ofHost rfl rfl rfl, .inr ⟨b, rfl, by simpa using ‹¬ s.rxEof = true›⟩, id⟩
  case streamEof => cases h; exact ⟨.ofHost rfl rfl rfl, .inl rfl, fun _ => rfl⟩
  case command c => exact free (s.putCommand_onlyHost c) h
  case raiseCancel => cases h; exact ⟨.ofHost rfl rfl rfl, .inl rfl, id⟩
  case raiseRst => cases h; exact ⟨.ofHost rfl rfl rfl, .inl rfl, id⟩
  case viewRead n i =>
    unfold viewRead at h
    repeat' split at h
    all_goals cases h
    exact ⟨.ofHost rfl rfl rfl, .inl rfl, id⟩
  case viewWrite => cases h
  case takeResponse =>
    refine free (u := s.takeResponse) ?_ h
    unfold State.takeResponse
    split
    · exact .refl s
    · exact ⟨⟨rfl, rfl, ⟨_, s.block.logPort, rfl⟩⟩, rfl, rfl, rfl, rfl⟩
  case takeLog =>
    cases h
    unfold State.takeLog
    split
    · exact ⟨.ofHost rfl rfl rfl, .inl rfl, id⟩
    · exact ⟨⟨rfl, rfl, ⟨s.block.respPort, _, rfl⟩⟩, .inl rfl, id⟩
  case write bytes => exact free (s.writeTx_onlyHost bytes) h
  case sink e => exact free (s.sinkEvent_onlyHost e) h
  case start p => exact free (s.startProgram_onlyHost p) h

/-- Everything the block's step can do to the machine (R6, R101, R164): reset, cancel, hold, end of stream, one byte, no
command there, READ_PACKET taken, or a one-step command's response. -/
theorem blockTurn_next {s t : State} (h : blockTurn s = .next t) :
    (s.rst = true ∧ t = s.lowerInputs.setBlock (Block.reset s.config.crc)) ∨
    (s.rst = false ∧ s.block.busy = true ∧ s.cancel = true ∧
      t = s.lowerInputs.setBlock (s.block.finish .cancelled)) ∨
    (s.rst = false ∧ s.block.busy = true ∧ s.cancel = false ∧ ∃ ph, s.block.rxState = ph.code ∧ ph ≠ .idle ∧
      ((s.rxBytes = [] ∧ s.rxEof = false ∧ t = s.lowerInputs) ∨
       (s.rxBytes = [] ∧ s.rxEof = true ∧ t = s.lowerInputs.setBlock (rxEnd s.block)) ∨
       (∃ b rest, s.rxBytes = b :: rest ∧
          t = { s.lowerInputs with rxBytes := rest, block := rxByte s.config.crc ph s.block b }))) ∨
    (s.rst = false ∧ s.block.busy = false ∧
      ((s.cmdPort = [] ∧ t = s.lowerInputs) ∨
       (∃ c rest i, s.cmdPort = c :: rest ∧ decodeCommand c = .ok i ∧
          t = { s.lowerInputs with cmdPort := rest, block := t.block } ∧
          (t.block = { s.block with
              busy := true, curOp := 3, pktValid := false, payCnt := 0, rxState := RxPhase.hunt.code } ∨
           ∃ r, t.block = s.block.respond r)))) := by
  rcases blockTurn_cases s with ⟨hr, e⟩ | ⟨hr, hc, hb, e⟩ | ⟨hr, hc, hb, e⟩ | ⟨hr, hb, e⟩ <;> rw [e] at h
  · cases h
    exact .inl ⟨hr, rfl⟩
  · refine .inr (.inl ⟨hr, hb, hc, ?_⟩)
    have : exec .cancel s.lowerInputs = .next (s.lowerInputs.setBlock (s.block.finish .cancelled)) :=
      congrArg _ (if_pos hb)
    rw [this] at h
    cases h
    rfl
  · exact .inr (.inr (.inl ⟨hr, hb, hc, rxItem_cases h⟩))
  · refine .inr (.inr (.inr ⟨hr, hb, ?_⟩))
    rcases commandTurn_cases s.lowerInputs with ⟨hp, e⟩ | ⟨c, rest, i, hp, hd, e⟩ | ⟨c, rest, i, hp, hd, e⟩ <;>
      rw [e] at h
    · cases h
      exact .inl ⟨hp, rfl⟩
    · refine .inr ⟨c, rest, i, hp, hd, ?_⟩
      obtain ⟨h1, h2, h3, h4, h5, h6, -, h7⟩ := exec_command_frame hd h
      have h8 := exec_command_inputs hd h
      cases t
      simp_all [State.lowerInputs]
    · cases h

/-- Everything a step can be (R6, R162): no model fault shows, and the block moves, or another agent does. -/
theorem step_cases {s t : State} (h : step s = .next t) :
    s.block.modelFault = none ∧
      ((∃ ts, blockTurn { s with turns := ts } = .next t) ∨
       (OnlyPorts { s with turns := t.turns } t ∧
         (t.rxBytes = s.rxBytes ∨ ∃ b, t.rxBytes = s.rxBytes ++ [b] ∧ s.rxEof = false) ∧
         (s.rxEof = true → t.rxEof = true))) := by
  obtain ⟨hm, ⟨ht, _, h⟩ | ⟨ht, _, h⟩ | ⟨turn, rest, ht, h⟩⟩ := step_next h <;> refine ⟨hm, ?_⟩
  · exact .inl ⟨s.turns, h⟩
  · have hu := programTurn_onlyHost h
    exact .inr ⟨by rw [hu.turns]; exact hu.toOnlyPorts, .inl hu.rxBytes, fun he => hu.rxEof.trans he⟩
  · by_cases hb : turn = .block
    · subst hb
      exact .inl ⟨rest, h⟩
    · obtain ⟨hu, hv⟩ := agentTurn_onlyPorts hb h
      exact .inr ⟨by rw [hu.turns]; exact hu, hv⟩

/-- The block's step does not touch the host's side (R45, R97). -/
theorem blockTurn_host {s t : State} (h : blockTurn s = .next t) : t.host = s.host := by
  rcases blockTurn_next h with ⟨-, rfl⟩ | ⟨-, -, -, rfl⟩ |
    ⟨-, -, -, _, -, -, ⟨-, -, rfl⟩ | ⟨-, -, rfl⟩ | ⟨_, _, -, rfl⟩⟩ | ⟨-, -, ⟨-, rfl⟩ | ⟨_, _, _, -, -, e, -⟩⟩
  all_goals first | rfl | (rw [e]; rfl)

/-- Everything a step can do to the host's side (R137): its program moves, or only what it has read grows, or, with no
program running, it takes one of the turns of a free host. -/
theorem step_host_cases {s t : State} (h : step s = .next t) :
    (∃ ts, programTurn { s with turns := ts } = .next t) ∨
    t.host = { s.host with seen := t.host.seen } ∨
    (s.host.point = .stopped ∧ ∃ turn rest, s.turns = turn :: rest ∧ turn.needsFreeHost = true ∧
      agentTurn turn { s with turns := rest } = .next t) := by
  obtain ⟨-, ⟨-, -, h⟩ | ⟨-, -, h⟩ | ⟨turn, rest, ht, h⟩⟩ := step_next h
  · exact .inr (.inl (by rw [blockTurn_host h]))
  · exact .inl ⟨s.turns, h⟩
  · by_cases hf : turn.needsFreeHost = true
    · by_cases hp : s.host.point = .stopped
      · exact .inr (.inr ⟨hp, turn, rest, ht, hf, h⟩)
      · have hw : ∀ u, State.whenFree { s with turns := rest } u = .next { s with turns := rest } := fun u =>
          congrArg _ (if_pos (decide_eq_true hp))
        cases turn <;> simp only [Turn.needsFreeHost, Bool.false_eq_true] at hf <;> rw [agentTurn, hw] at h <;>
          cases h <;> exact .inr (.inl rfl)
    · cases turn <;> simp only [Turn.needsFreeHost, not_true_eq_false] at hf <;> simp only [agentTurn] at h
      case block => exact .inr (.inl (by rw [blockTurn_host h]))
      case program => exact .inl ⟨rest, h⟩
      case streamByte b => cases h; exact .inr (.inl (by unfold State.appendByte; split <;> rfl))
      case viewRead n i =>
        unfold viewRead at h
        repeat' split at h
        all_goals cases h
        exact .inr (.inl rfl)
      case viewWrite => cases h
      case takeLog => cases h; exact .inr (.inl (by unfold State.takeLog; split <;> rfl))
      all_goals cases h; exact .inr (.inl rfl)

end Sys2Proof.Machine
end

