-- ==== Sys2Proof/Laws/Encoding.lean ====
section
/-!
SUPPORT. The fields of a command word, of a key and of words sent as bytes: each field read back is the field put in
(R67, R70, R78).
-/

namespace Sys2Proof

@[simp] theorem packetKey_function (f a1 a2 : Byte) : (packetKey f a1 a2).extractLsb' 16 8 = f := by
  ext i hi
  simp [packetKey, hi, show 16 + i < 24 by omega, show ¬ (16 + i < 16) by omega,
    show ¬ (16 + i < 8) by omega, BitVec.getLsbD_of_ge a1 (16 + i - 8) (by omega),
    BitVec.getLsbD_of_ge a2 (16 + i) (by omega)]

@[simp] theorem packetKey_address1 (f a1 a2 : Byte) : (packetKey f a1 a2).extractLsb' 8 8 = a1 := by
  ext i hi
  simp [packetKey, hi, show 8 + i < 24 by omega, show 8 + i < 16 by omega,
    show ¬ (8 + i < 8) by omega]

@[simp] theorem packetKey_address2 (f a1 a2 : Byte) : (packetKey f a1 a2).extractLsb' 0 8 = a2 := by
  ext i hi
  simp [packetKey, hi, show i < 24 by omega, show i < 16 by omega]

/-- A key is its three fields (R78). -/
theorem packetKey_fields (k : BitVec 24) :
    packetKey (k.extractLsb' 16 8) (k.extractLsb' 8 8) (k.extractLsb' 0 8) = k := by
  ext i hi
  by_cases h8 : i < 8
  · simp [packetKey, hi, h8, show i < 16 by omega]
  · by_cases h16 : i < 16
    · simp [packetKey, hi, h8, h16, show i - 8 < 8 by omega, show 8 + (i - 8) = i by omega]
    · simp [packetKey, hi, h8, h16, show i - 16 < 8 by omega, show 16 + (i - 16) = i by omega,
        show ¬ (i - 8 < 8) by omega]

@[simp] theorem commandWord_op (op : BitVec 4) (f a1 a2 : Byte) : opField (commandWord op f a1 a2) = op := by
  ext i hi
  simp [opField, commandWord, field, hi, show i < 8 by omega, show i < 16 by omega, show i < 24 by omega,
    show i < 32 by omega]

@[simp] theorem commandWord_reserved (op : BitVec 4) (f a1 a2 : Byte) :
    (commandWord op f a1 a2).extractLsb' 4 4 = 0#4 := by
  ext i hi
  simp [commandWord, field, show 4 + i < 8 by omega, show 4 + i < 16 by omega, show 4 + i < 24 by omega,
    show 4 + i < 32 by omega]

@[simp] theorem commandWord_function (op : BitVec 4) (f a1 a2 : Byte) :
    (commandWord op f a1 a2).extractLsb' 8 8 = f := by
  ext i hi
  simp [commandWord, field, hi, show ¬ (8 + i < 8) by omega, show 8 + i < 16 by omega, show 8 + i < 24 by omega,
    show 8 + i < 32 by omega, BitVec.getLsbD_of_ge op (8 + i) (by omega)]

@[simp] theorem commandWord_address1 (op : BitVec 4) (f a1 a2 : Byte) :
    (commandWord op f a1 a2).extractLsb' 16 8 = a1 := by
  ext i hi
  simp [commandWord, field, hi, show ¬ (16 + i < 8) by omega, show ¬ (16 + i < 16) by omega,
    show 16 + i < 24 by omega, show 16 + i < 32 by omega, BitVec.getLsbD_of_ge op (16 + i) (by omega),
    BitVec.getLsbD_of_ge f (16 + i - 8) (by omega)]

@[simp] theorem commandWord_address2 (op : BitVec 4) (f a1 a2 : Byte) :
    (commandWord op f a1 a2).extractLsb' 24 8 = a2 := by
  ext i hi
  simp [commandWord, field, hi, show ¬ (24 + i < 8) by omega, show ¬ (24 + i < 16) by omega,
    show ¬ (24 + i < 24) by omega, show 24 + i < 32 by omega, BitVec.getLsbD_of_ge op (24 + i) (by omega),
    BitVec.getLsbD_of_ge f (24 + i - 8) (by omega), BitVec.getLsbD_of_ge a1 (24 + i - 16) (by omega)]

@[simp] theorem commandWord_operands (op : BitVec 4) : (commandWord op 0#8 0#8 0#8).extractLsb' 8 24 = 0#24 := by
  ext i hi
  simp [commandWord, field, BitVec.getLsbD_of_ge op (8 + i) (by omega)]

/-- A command word with nothing in bits [7:4] is its fields (R67). -/
theorem commandWord_fields {w : Word} (h : w.extractLsb' 4 4 = 0) :
    commandWord (opField w) (w.extractLsb' 8 8) (w.extractLsb' 16 8) (w.extractLsb' 24 8) = w := by
  ext i hi
  by_cases h4 : i < 4
  · simp [commandWord, field, opField, hi, h4, show i < 8 by omega, show i < 16 by omega, show i < 24 by omega]
  · by_cases h8 : i < 8
    · have hb : w.getLsbD i = false := by
        have := congrArg (fun v : BitVec 4 => v.getLsbD (i - 4)) h
        simpa [show i - 4 < 4 by omega, show 4 + (i - 4) = i by omega] using this
      simp [commandWord, field, opField, hi, h4, h8, show i < 16 by omega, show i < 24 by omega]
      simpa [BitVec.getLsbD_eq_getElem hi] using hb.symm
    · by_cases h16 : i < 16
      · simp [commandWord, field, opField, hi, h4, h8, h16, show i < 24 by omega, show i - 8 < 8 by omega,
          show 8 + (i - 8) = i by omega]
      · by_cases h24 : i < 24
        · simp [commandWord, field, opField, hi, h4, h8, h16, h24, show ¬ (i - 8 < 8) by omega,
            show i - 16 < 8 by omega, show 16 + (i - 16) = i by omega]
        · simp [commandWord, field, opField, hi, h4, h8, h16, h24, show ¬ (i - 8 < 8) by omega,
            show ¬ (i - 16 < 8) by omega, show i - 24 < 8 by omega, show 24 + (i - 24) = i by omega]

/-- A word's four bytes put back together (R67, assumption 2). -/
theorem field_wordBytes (w : Word) :
    field (w.extractLsb' 24 8) 24 ||| field (w.extractLsb' 16 8) 16 ||| field (w.extractLsb' 8 8) 8 |||
      field (w.extractLsb' 0 8) 0 = w := by
  ext i hi
  by_cases h8 : i < 8
  · simp [field, hi, h8, show i < 16 by omega, show i < 24 by omega]
  · by_cases h16 : i < 16
    · simp [field, hi, h8, h16, show i < 24 by omega, show i - 8 < 8 by omega, show 8 + (i - 8) = i by omega]
    · by_cases h24 : i < 24
      · simp [field, hi, h8, h16, h24, show ¬ (i - 8 < 8) by omega, show i - 16 < 8 by omega,
          show 16 + (i - 16) = i by omega]
      · simp [field, hi, h8, h16, h24, show ¬ (i - 8 < 8) by omega, show ¬ (i - 16 < 8) by omega,
          show i - 24 < 8 by omega, show 24 + (i - 24) = i by omega]

end Sys2Proof
end

