-- ==== Sys2Proof/Laws/PerInstr.lean ====
section
/-!
SUPPORT. Per instruction: the encoding of a well-formed instruction matches its row of opcode_table.json, the pattern
under the mask, and none of the keys the row excludes (R78).
-/

namespace Sys2Proof.Laws

/-- A row's `match` and `mask`, and the patterns and masks its `excludes` lists. -/
structure TableRow where
  pattern  : Word
  mask     : Word
  excludes : List (Word × Word)
  deriving DecidableEq, Repr

/-- The number matches the row: the pattern under the mask, and no excluded pattern. -/
def TableRow.Accepts (r : TableRow) (w : Word) : Prop :=
  w &&& r.mask = r.pattern ∧ ∀ e ∈ r.excludes, w &&& e.2 ≠ e.1

/-- The rows of opcode_table.json that have a pattern, as the table prints them. -/
def tableRow : Instr → Option TableRow
  | .crc16 _ => some ⟨0x00000001, 0xFFFFFFFF, []⟩
  | .encode _ _ _ _ => some ⟨0x00000002, 0x000000FF, []⟩
  | .readPacket => some ⟨0x00000003, 0xFFFFFFFF, []⟩
  | .decode => some ⟨0x00000004, 0xFFFFFFFF, []⟩
  | .cancel => none
  | .rst => none
  | .envUnoccupied => some ⟨0x040305, 0xFFFFFF, []⟩
  | .envOccupiedStatic => some ⟨0x040305, 0xFFFFFF, []⟩
  | .envOccupiedMoving => some ⟨0x040305, 0xFFFFFF, []⟩
  | .envOther _ => some ⟨0x040305, 0xFFFFFF, []⟩
  | .bodyData _ _ _ _ => some ⟨0x040306, 0xFFFFFF, []⟩
  | .bodyOtherLen _ => some ⟨0x040306, 0xFFFFFF, []⟩
  | .reportOther _ _ _ => some ⟨0x040000, 0xFF0000, [(0x040305, 0xFFFFFF), (0x040306, 0xFFFFFF)]⟩
  | .setParam _ _ _ => some ⟨0x020000, 0xFF0000, []⟩
  | .setParamAck _ _ _ => some ⟨0x030000, 0xFF0000, []⟩
  | .nonReport _ _ _ _ =>
    some ⟨0x000000, 0x000000, [(0x020000, 0xFF0000), (0x030000, 0xFF0000), (0x040000, 0xFF0000)]⟩

/-- The bits the table's pattern is over: the command word, or the key. -/
def patternBits : Encoding → Option Word
  | .command c => some c.word
  | .sideband _ _ => none
  | .packet k _ => some (k.setWidth 32)

/-- A well-formed instruction's encoding matches its row; a sideband row has no bits. -/
def TableMatch.Statement (i : Instr) : Prop :=
  i.WellFormed = true →
    match tableRow i, patternBits (encode i) with
    | none, none => True
    | some r, some w => r.Accepts w
    | _, _ => False

/-- A key under the function's mask is its function. -/
theorem packetKey_masked (f a1 a2 : Byte) :
    (packetKey f a1 a2).setWidth 32 &&& 0xFF0000 = field f 16 := by
  ext i hi
  have hm : ∀ j, j < 32 → (0xFF0000 : Word).getLsbD j = decide (16 ≤ j ∧ j < 24) := by decide
  rw [BitVec.getElem_and, ← BitVec.getLsbD_eq_getElem (x := (0xFF0000 : Word)), hm i hi]
  by_cases h16 : i < 16
  · simp [field, h16, show ¬ (16 ≤ i) by omega]
  · by_cases h24 : i < 24
    · simp [packetKey, field, h16, h24, show 16 ≤ i by omega, show ¬ (i < 8) by omega,
        BitVec.getLsbD_of_ge a1 (i - 8) (by omega), BitVec.getLsbD_of_ge a2 i (by omega)]
    · simp [field, h16, h24, BitVec.getLsbD_of_ge f (i - 16) (by omega)]

/-- The whole key under the full mask is itself. -/
theorem setWidth_masked (k : BitVec 24) : k.setWidth 32 &&& 0xFFFFFF = k.setWidth 32 := by
  ext i hi
  have hm : ∀ j, j < 32 → (0xFFFFFF : Word).getLsbD j = decide (j < 24) := by decide
  rw [BitVec.getElem_and, ← BitVec.getLsbD_eq_getElem (x := (0xFFFFFF : Word)), hm i hi]
  by_cases h24 : i < 24
  · simp [h24]
  · simp [h24, BitVec.getLsbD_of_ge k i (by omega)]

theorem packetKey_inj {f a1 a2 g b1 b2 : Byte}
    (h : (packetKey f a1 a2).setWidth 32 = ((packetKey g b1 b2).setWidth 32 : Word)) :
    f = g ∧ a1 = b1 ∧ a2 = b2 := by
  have h' : packetKey f a1 a2 = packetKey g b1 b2 := by
    have := congrArg (fun w : Word => w.setWidth 24) h
    simpa using this
  refine ⟨?_, ?_, ?_⟩
  · simpa using congrArg (fun k : BitVec 24 => k.extractLsb' 16 8) h'
  · simpa using congrArg (fun k : BitVec 24 => k.extractLsb' 8 8) h'
  · simpa using congrArg (fun k : BitVec 24 => k.extractLsb' 0 8) h'

theorem field_inj {f g : Byte} (h : field f 16 = field g 16) : f = g := by
  ext i hi
  have := congrArg (fun w : Word => w.getLsbD (16 + i)) h
  simpa [field, show 16 + i < 32 by omega, hi] using this

theorem TableMatch.crc16 (data : List Byte) : TableMatch.Statement (.crc16 data) :=
  fun _ => ⟨show commandWord 1 0 0 0 &&& 0xFFFFFFFF = 0x00000001 by decide, by simp⟩

theorem TableMatch.encode (f a1 a2 : Byte) (data : List Byte) : TableMatch.Statement (.encode f a1 a2 data) := by
  refine fun _ => ⟨?_, by simp⟩
  ext i hi
  have hm : ∀ j, j < 32 → (0xFF : Word).getLsbD j = decide (j < 8) := by decide
  show (commandWord 2 f a1 a2 &&& 0xFF)[i] = (2 : Word)[i]
  rw [BitVec.getElem_and, ← BitVec.getLsbD_eq_getElem (x := (0xFF : Word)), hm i hi]
  by_cases h8 : i < 8
  · have : i < 16 := by omega
    have : i < 24 := by omega
    simp [commandWord, field, *]
  · simp [h8]
    revert i; decide

theorem TableMatch.readPacket : TableMatch.Statement .readPacket := fun _ => ⟨by decide, by simp⟩

theorem TableMatch.decode : TableMatch.Statement .decode := fun _ => ⟨by decide, by simp⟩

theorem TableMatch.cancel : TableMatch.Statement .cancel := fun _ => trivial

theorem TableMatch.rst : TableMatch.Statement .rst := fun _ => trivial

theorem TableMatch.envUnoccupied : TableMatch.Statement .envUnoccupied :=
  fun _ => ⟨by decide, by simp⟩

theorem TableMatch.envOccupiedStatic : TableMatch.Statement .envOccupiedStatic :=
  fun _ => ⟨by decide, by simp⟩

theorem TableMatch.envOccupiedMoving : TableMatch.Statement .envOccupiedMoving :=
  fun _ => ⟨by decide, by simp⟩

theorem TableMatch.envOther (p : List Byte) : TableMatch.Statement (.envOther p) :=
  fun _ => ⟨show (packetKey 4 3 5).setWidth 32 &&& 0xFFFFFF = (0x040305 : Word) by decide, by simp⟩

theorem TableMatch.bodyData (p0 p1 p2 p3 : Byte) : TableMatch.Statement (.bodyData p0 p1 p2 p3) :=
  fun _ => ⟨show (packetKey 4 3 6).setWidth 32 &&& 0xFFFFFF = (0x040306 : Word) by decide, by simp⟩

theorem TableMatch.bodyOtherLen (p : List Byte) : TableMatch.Statement (.bodyOtherLen p) :=
  fun _ => ⟨show (packetKey 4 3 6).setWidth 32 &&& 0xFFFFFF = (0x040306 : Word) by decide, by simp⟩

theorem TableMatch.reportOther (a1 a2 : Byte) (p : List Byte) : TableMatch.Statement (.reportOther a1 a2 p) := by
  intro h
  simp only [Instr.WellFormed, decide_eq_true_eq] at h
  refine ⟨(packetKey_masked 4 a1 a2).trans (by decide), ?_⟩
  simp only [List.mem_cons, List.not_mem_nil, or_false, forall_eq_or_imp, forall_eq, setWidth_masked]
  refine ⟨fun he => h.2.1 ?_, fun he => h.2.2 ?_⟩
  · exact (packetKey_inj (g := 4) (b1 := 3) (b2 := 5) (he.trans (by decide))).2
  · exact (packetKey_inj (g := 4) (b1 := 3) (b2 := 6) (he.trans (by decide))).2

theorem TableMatch.setParam (a1 a2 : Byte) (p : List Byte) : TableMatch.Statement (.setParam a1 a2 p) :=
  fun _ => ⟨(packetKey_masked 2 a1 a2).trans (by decide), by simp⟩

theorem TableMatch.setParamAck (a1 a2 : Byte) (p : List Byte) : TableMatch.Statement (.setParamAck a1 a2 p) :=
  fun _ => ⟨(packetKey_masked 3 a1 a2).trans (by decide), by simp⟩

theorem TableMatch.nonReport (f a1 a2 : Byte) (p : List Byte) : TableMatch.Statement (.nonReport f a1 a2 p) := by
  intro h
  simp only [Instr.WellFormed, decide_eq_true_eq] at h
  refine ⟨by simp, ?_⟩
  simp only [List.mem_cons, List.not_mem_nil, or_false, forall_eq_or_imp, forall_eq, packetKey_masked]
  refine ⟨fun he => h.2.1 ?_, fun he => h.2.2.1 ?_, fun he => h.2.2.2 ?_⟩
  · exact field_inj (he.trans (by decide))
  · exact field_inj (he.trans (by decide))
  · exact field_inj (he.trans (by decide))

end Sys2Proof.Laws
end

