-- ==== Sys2Proof/Tests/Slice0.lean ====
section
/-!
SUPPORT. The model's own tests: ill-formed terms, words written out from 30_encoding.md, single steps whose expected
results are those of 95_test_vectors.md, and for every statement with hypotheses a witness that meets them together.
-/

namespace Sys2Proof.Tests

open Sys2Proof Sys2Proof.Machine

/-! ## States -/

/-- Right after power-on, with HS_ADDR1 = 4 as program P2 of 95_test_vectors.md has it. -/
def fresh : State := State.resetWith { Config.reference with hsAddr1 := 4 }

/-- Commands waiting on the port of an idle block. -/
def withCommands (cs : List Command) : State := { fresh with cmdPort := cs }

/-- A READ_PACKET running in a state of the framer, with the length and count registers and the stream given. -/
def reading (ph : RxPhase) (len cnt : Half) (bytes : List Byte) : State :=
  { fresh with
    block := { fresh.block with busy := true, curOp := 3, rxState := ph.code, lenReg := len, payCnt := cnt }
    rxBytes := bytes }

/-- The host's program at a point, with the values of program P2. -/
def atPoint (pt : ProgramPoint) : State := { fresh with host := { fresh.host with point := pt, sensor := ⟨1, 3⟩ } }

/-- The same with a record on the response port. -/
def answered (pt : ProgramPoint) (r : Response) : State :=
  { atPoint pt with block := { fresh.block with respPort := [r] } }

/-- A validated packet in the packet registers. -/
def holding (f a1 a2 : Byte) : State :=
  { fresh with
    block :=
      { fresh.block with pktValid := true, lastResult := .packetOk, lenReg := 7, funcReg := f, a1Reg := a1, a2Reg := a2 } }

/-- An acknowledgment packet with a one-byte payload. -/
def ackPacket (a2 v : Byte) : Packet := ⟨3, 4, a2, 8, [v], 0⟩

/-- What holds of the state a step leads to; a fault or a refusal satisfies nothing. -/
def After (r : Result) (p : State → Bool) : Bool :=
  match r with
  | .next t => p t
  | _ => false

/-- Whether an outcome is the given refusal. -/
def refusedAs (r : Result) (x : Refusal) : Bool :=
  match r with
  | .refused y => y = x
  | _ => false

/-- A long data list. -/
def zeros (n : Nat) : List Byte := List.replicate n 0

theorem zeros_length (n : Nat) : (zeros n).length = n := List.length_replicate

/-! ## WellFormed refuses an ill-formed term of each check -/

theorem test_wellFormed_crc16 : (Instr.crc16 (zeros 65536)).WellFormed = false := by
  simp [Instr.WellFormed, zeros_length, maxCount]

theorem test_wellFormed_encode : (Instr.encode 4 3 5 (zeros 65529)).WellFormed = false := by
  simp [Instr.WellFormed, zeros_length, maxPayload]

theorem test_wellFormed_envOther :
    (Instr.envOther [0x01, 0x00, 0xFF]).WellFormed = false ∧
      (Instr.envOther (zeros 65529)).WellFormed = false := by
  constructor
  · decide
  · simp [Instr.WellFormed, zeros_length, maxPayload]

theorem test_wellFormed_bodyOtherLen :
    (Instr.bodyOtherLen [0, 0, 0x80, 0x3F]).WellFormed = false ∧
      (Instr.bodyOtherLen (zeros 65529)).WellFormed = false := by
  constructor
  · decide
  · simp [Instr.WellFormed, zeros_length, maxPayload]

theorem test_wellFormed_reportOther :
    (Instr.reportOther 3 5 []).WellFormed = false ∧ (Instr.reportOther 3 6 []).WellFormed = false ∧
      (Instr.reportOther 3 7 (zeros 65529)).WellFormed = false := by
  refine ⟨by decide, by decide, ?_⟩
  simp [Instr.WellFormed, zeros_length, maxPayload]

theorem test_wellFormed_setParam : (Instr.setParam 4 0x10 (zeros 65529)).WellFormed = false := by
  simp [Instr.WellFormed, zeros_length, maxPayload]

theorem test_wellFormed_setParamAck : (Instr.setParamAck 4 0x10 (zeros 65529)).WellFormed = false := by
  simp [Instr.WellFormed, zeros_length, maxPayload]

theorem test_wellFormed_nonReport :
    (Instr.nonReport 2 0 0 []).WellFormed = false ∧ (Instr.nonReport 3 0 0 []).WellFormed = false ∧
      (Instr.nonReport 4 0 0 []).WellFormed = false ∧
      (Instr.nonReport 1 0 0 (zeros 65529)).WellFormed = false := by
  refine ⟨by decide, by decide, by decide, ?_⟩
  simp [Instr.WellFormed, zeros_length, maxPayload]

/-! ## Decoding, every constructor, from words written out bit by bit (R67, R68, R70, R78) -/

/-- OP = 1 in bits [3:0], COUNT = 2 low byte first, two data bytes (R67, R70). -/
theorem test_decode_crc16 :
    decodeBytes [0b00000001, 0, 0, 0, 0b00000010, 0b00000000, 0xAB, 0xCD] = some (.crc16 [0xAB, 0xCD]) := by decide

/-- ADDR2 [31:24] = 5, ADDR1 [23:16] = 3, FUNCTION [15:8] = 4, OP = 2: the word 0x05030402 of V-ENC-1. -/
theorem test_decode_encode :
    decodeBytes [0b00000010, 0b00000100, 0b00000011, 0b00000101, 0b00000011, 0b00000000, 1, 1, 1] =
      some (.encode 4 3 5 [1, 1, 1]) := by decide

theorem test_decode_readPacket : decodeTableWord 32 0b00000000000000000000000000000011 = some .readPacket := by decide

theorem test_decode_decode : decodeTableWord 32 0b00000000000000000000000000000100 = some .decode := by decide

/-- The table's row word of CRC16, COUNT 0. -/
theorem test_decode_crc16_row : decodeTableWord 32 0x00000001 = some (.crc16 []) := by decide

theorem test_decode_sideband :
    decode (.sideband false true) = .ok .cancel ∧ decode (.sideband true false) = .ok .rst ∧
      decode (.sideband true true) = .ok .rst ∧ decode (.sideband false false) = .error .noInput := by decide

/-- Key bits: function [23:16] = 4, address1 [15:8] = 3, address2 [7:0] = 5 (R78). -/
theorem test_decode_environment :
    decode (.packet 0b000001000000001100000101 [0x00, 0xFF, 0xFF]) = .ok .envUnoccupied ∧
      decode (.packet 0b000001000000001100000101 [0x01, 0x00, 0xFF]) = .ok .envOccupiedStatic ∧
      decode (.packet 0b000001000000001100000101 [0x01, 0x01, 0x01]) = .ok .envOccupiedMoving ∧
      decode (.packet 0b000001000000001100000101 [0x01, 0x00, 0x00]) = .ok (.envOther [0x01, 0x00, 0x00]) := by decide

theorem test_decode_body :
    decode (.packet 0b000001000000001100000110 [0x00, 0x00, 0x80, 0x3F]) = .ok (.bodyData 0 0 0x80 0x3F) ∧
      decode (.packet 0b000001000000001100000110 [0x00, 0x00, 0x80]) = .ok (.bodyOtherLen [0, 0, 0x80]) := by decide

theorem test_decode_report :
    decode (.packet 0b000001000000001100000111 [0x05]) = .ok (.reportOther 3 7 [0x05]) := by decide

theorem test_decode_setParam :
    decode (.packet 0b000000100000010000010000 [0x01]) = .ok (.setParam 4 0x10 [0x01]) ∧
      decode (.packet 0b000000110000010000001100 [0x03]) = .ok (.setParamAck 4 0x0C [0x03]) := by decide

theorem test_decode_nonReport :
    decode (.packet 0b000000010000001100000101 [1, 1, 1]) = .ok (.nonReport 1 3 5 [1, 1, 1]) := by decide

/-- V-CRC-12, V-RX-20, V-ENC-24 and the reserved opcodes (R69). -/
theorem test_decode_refused :
    decodeCommand ⟨0x00000101, []⟩ = .error .operandBits ∧ decodeCommand ⟨0x00000103, []⟩ = .error .operandBits ∧
      decodeCommand ⟨0x05030412, []⟩ = .error .reservedBits ∧ decodeCommand ⟨0x00000000, []⟩ = .error .reservedOpcode ∧
      decodeCommand ⟨0x0000000F, []⟩ = .error .reservedOpcode := by decide

/-! ## CRC and frames (95_test_vectors.md 2.1, 2.2) -/

/-- V-CRC-2. -/
theorem test_crc16_check :
    crc16 CrcParams.modbus [0x31, 0x32, 0x33, 0x34, 0x35, 0x36, 0x37, 0x38, 0x39] = 0x4B37 := by decide +kernel

/-- V-CRC-3 and V-CRC-6, in the three forms. -/
theorem test_crc16_forms :
    crc16 CrcParams.modbus [0x55] = 0x7F7F ∧ crc16Reflected [0x55, 0x0A, 0x00] = 0x7067 ∧
      crc16Table [0x55, 0x0A, 0x00] = 0x7067 := by decide +kernel

/-- V-ENC-13: ENCODE 2, 4, 0x10, [01]. -/
theorem test_encode_frame :
    encodeFrame CrcParams.modbus 2 4 0x10 [0x01] = [0x55, 0x08, 0x00, 0x02, 0x04, 0x10, 0x01, 0x93, 0x34] := by decide +kernel

/-- V-ENC-10: the empty payload. -/
theorem test_encode_empty :
    encodeFrame CrcParams.modbus 4 3 5 [] = [0x55, 0x07, 0x00, 0x04, 0x03, 0x05, 0x38, 0xEC] := by decide +kernel

/-- Other parameters than the defaults, by hand from R83 and R85: nothing reflected, register 0, byte 01: the one 1
bit reaches bit 15 after seven shifts and the eighth leaves the polynomial. -/
theorem test_crcStep_direct :
    crcStep ⟨0x1021, 0, false, false, 0xFFFF⟩ 0x0000 0x01 = 0x1021 ∧
      crcFinal ⟨0x1021, 0, false, false, 0xFFFF⟩ 0x1021 = 0xEFDE := by decide

/-! ## Single steps -/

/-- CRC16 of no data answers 0xFFFF (V-CRC-1), its command gone from the port. -/
theorem test_step_crc16 :
    After (step (withCommands [⟨1, []⟩])) (fun t => t.block.respPort = [.crc 0xFFFF] && t.cmdPort = []) := by decide

/-- A word the decoder refuses stops the step (V-CRC-12). -/
theorem test_step_refused :
    refusedAs (step (withCommands [⟨0x101, []⟩])) (.commandRefused .operandBits) = true := by decide

/-- READ_PACKET is taken: STATUS reads BUSY, RX_STATE 1, CUR_OP 3 (R33, R100). -/
theorem test_step_readPacket :
    After (step (withCommands [⟨3, []⟩])) (fun t => t.block.view CrcParams.modbus 0 0 = 0x00000C05) := by decide

/-- W3: the first garbage byte is logged. -/
theorem test_step_noise :
    After (step (reading .hunt 0 0 [0x12, 0x55]))
      (fun t => t.block.logPort = [⟨.noiseByte, 0x12, 0⟩] && t.rxBytes = [0x55]) := by decide

/-- V-RX-9: the sync byte; CRC_RUN then reads 0x7F7F. -/
theorem test_step_sync :
    After (step (reading .hunt 0 0 [0x55])) (fun t => t.block.view CrcParams.modbus 3 0 = 0x00007F7F) := by decide +kernel

/-- V-RX-6: length 3 ends the read. -/
theorem test_step_malformed :
    After (step (reading .lenHi 3 0 [0x00]))
      (fun t => t.block.respPort = [.read .malformedLength none] && t.block.logPort = [⟨.malformedLength, 3, 0⟩]) := by
  decide

/-- A length of 7, the least allowed, goes on. -/
theorem test_step_length7 : After (step (reading .lenHi 7 0 [0x00])) (fun t => t.block.rxState = 4) := by decide

/-- V-RX-8: the end of the stream in DATA, log record {4, 7, 1}. -/
theorem test_step_truncated :
    After (step { reading .data 10 1 [] with rxEof := true })
      (fun t => t.block.logPort = [⟨.truncated, 7, 1⟩] && t.block.lastResult = .truncated) := by decide

/-- V-RX-16: cancel leaves LEN and a waiting byte. -/
theorem test_step_cancel :
    After (step { reading .func 10 0 [0x04] with cancel := true })
      (fun t => t.block.view CrcParams.modbus 0 0 = 0x00000140 && t.block.lenReg = 10 && t.rxBytes = [0x04]) := by decide

/-- V-RX-17: cancel while idle. -/
theorem test_step_cancel_idle :
    After (step { fresh with cancel := true }) (fun t => t = fresh) := by decide

/-- V-RX-19: rst with cancel is a reset with no response. -/
theorem test_step_rst :
    After (step { reading .func 10 0 [0x04] with cancel := true, rst := true })
      (fun t => t.block = fresh.block && t.rxBytes = [0x04]) := by decide

/-- DECODE with no validated packet answers NONE (R126). -/
theorem test_step_decode_none :
    After (step (withCommands [⟨4, []⟩])) (fun t => t.block.respPort = [.decoded .none 0]) := by decide

/-- A row of the table placed where the next step takes it: (4, 3, 6) with no payload gives no event (R133). -/
theorem test_withFetchWord :
    After (step (State.reset.withFetchWord 24 0x040306)) (fun t => t.block.respPort = [.decoded .none 0]) ∧
      After (step (State.reset.withFetchWord 32 0x00000001)) (fun t => t.block.respPort = [.crc 0xFFFF]) := by decide

/-- V-DEC response words: DECODE's OCCUPIED_STATIC is 0x00000204; READ's PACKET_OK is 0x00000013. -/
theorem test_response_word :
    (Response.decoded .occupiedStatic 0).word = 0x00000204 ∧ (Response.read .packetOk none).word = 0x00000013 := by
  decide

/-- V-ENC-5's payload 00 00 80 3F is body_bits 0x3F800000, the value 1 (R132, R135). -/
theorem test_bodyBits : bodyBits 0x00 0x00 0x80 0x3F = 0x3F800000 ∧ bodyValue 0x3F800000 = .finite false (2 ^ 23) (-23) := by
  decide

/-- DATA stores at the index pay_cnt and counts (R111). -/
theorem test_step_data :
    After (step (reading .data 10 1 [0x42])) (fun t => Memory.read t.block.payBuf 1 = 0x42 && t.block.payCnt = 2) := by
  decide

/-! ## Witnesses: each statement's hypotheses are met together -/

theorem witness_DecodeEncodeEveryInstr :
    (Instr.encode 0xFF 0 0xFF [0x55]).WellFormed = true ∧ (Instr.envOther []).WellFormed = true ∧
      (Instr.nonReport 5 3 5 []).WellFormed = true := by decide

theorem witness_CommandRecordsHaveOneMeaning :
    (decodeCommand ⟨0x05030402, [1]⟩ = .ok (.encode 4 3 5 [1]) ∧ hasCount 0x05030402 = true) ∧
      (decodeCommand ⟨3, []⟩ = .ok .readPacket ∧ ([] : List Byte) = []) := by decide

theorem witness_PacketsHaveExactlyOneRow :
    (zeros 65528).length ≤ 65528 ∧
      ((Instr.envOther [7]).WellFormed = true ∧ encode (.envOther [7]) = .packet 0x040305 [7]) :=
  ⟨by simp [zeros_length], by decide⟩

theorem witness_ReservedCommandWordsRefused :
    ((withCommands [⟨0x00000005, []⟩]).TakesCommand ∧
      (opField 0x00000005 = 0 ∨ 5 ≤ (opField 0x00000005).toNat)) ∧
    ((withCommands [⟨0x00000081, []⟩]).TakesCommand ∧ (0x00000081 : Word).extractLsb' 4 4 ≠ 0) ∧
    ((withCommands [⟨0x80000004, []⟩]).TakesCommand ∧
      (0x80000004 : Word).extractLsb' 8 24 ≠ 0 ∧ opField 0x80000004 ≠ 2) := by decide

theorem witness_CommandBytesRoundTrip :
    ((zeros 65535).length ≤ 65535 ∧ hasCount 1 = true) ∧ hasCount 3 = false :=
  ⟨⟨by simp [zeros_length], by decide⟩, by decide⟩

theorem witness_StepMakesTheNextMove :
    fresh.block.modelFault = none ∧ fresh.turns = [] ∧ fresh.blockEnabled = false ∧ fresh.host.point = .stopped ∧
      fresh.block.respPort = [] ∧ fresh.block.logPort = [] ∧ (withCommands [⟨3, []⟩]).blockEnabled = true ∧
      ({ fresh with turns := [.block, .program, .streamByte 5] } : State).turns = .block :: [.program, .streamByte 5] := by
  decide

/-- A port with a record to take, a running program, and a turn it does not let the host take. -/
theorem witness_StepMakesTheNextMove_host :
    let s := { answered .stopped (.crc 0) with turns := [.takeResponse] }
    let u := { atPoint .loopReadWait with turns := [.start .loop] }
    (s.block.modelFault = none ∧ s.turns = .takeResponse :: [] ∧ s.host.point = .stopped ∧
      s.block.respPort = .crc 0 :: []) ∧
    (u.block.modelFault = none ∧ u.host.point ≠ .stopped ∧ u.turns = .start .loop :: [] ∧
      (Turn.start .loop).needsFreeHost = true) ∧
    ({ fresh.block with logPort := [⟨.noiseByte, 0x12, 0⟩] } : Block).logPort = ⟨.noiseByte, 0x12, 0⟩ :: [] := by decide

theorem witness_StepRunsDecodedCommand :
    let s := withCommands [⟨0x05030402, [1]⟩, ⟨3, []⟩]
    s.turns = [] ∧ s.rst = false ∧ s.block.busy = false ∧ s.block.modelFault = none ∧
      s.cmdPort = ⟨0x05030402, [1]⟩ :: [⟨3, []⟩] ∧ decodeCommand ⟨0x05030402, [1]⟩ = .ok (.encode 4 3 5 [1]) := by
  decide

theorem witness_SidebandBeforeStream :
    let s := reading .func 10 0 [0x04]
    (s.turns = [] ∧ s.block.modelFault = none ∧ s.rst = false ∧ s.cancel = false ∧ s.block.busy = true ∧
      s.rxBytes ≠ []) ∧
    ({ s with rst := true } : State).rst = true ∧
    (({ s with cancel := true } : State).rst = false ∧ ({ s with cancel := true } : State).cancel = true) := by decide

theorem witness_CommandWaitsWhileBusy :
    ∃ t, (reading .hunt 0 0 []).block.busy = true ∧ blockTurn (reading .hunt 0 0 []) = .next t := ⟨_, by decide, rfl⟩

theorem witness_UnreachableStatesFault :
    let b := fresh.block
    10 ≤ ({ b with rxState := 10 } : Block).rxState.toNat ∧ 10 ≤ ({ b with rxState := 15 } : Block).rxState.toNat ∧
      ({ b with busy := true } : Block).modelFault = some .invariantBroken ∧
      ({ b with rxState := 9, lenReg := 7 } : Block).modelFault = some .invariantBroken ∧
      ({ b with busy := true, rxState := 1, curOp := 2 } : Block).modelFault = some .invariantBroken ∧
      ({ b with busy := true, rxState := 4, curOp := 3, lenReg := 6 } : Block).modelFault = some .invariantBroken ∧
      (reading .data 8 1 []).block.modelFault = some .invariantBroken ∧
      (reading .crcLo 8 0 []).block.modelFault = some .invariantBroken ∧
      (reading .crcHi 8 2 []).block.modelFault = some .invariantBroken ∧
      ({ (reading .hunt 0 0 []).block with pktValid := true } : Block).modelFault = some .invariantBroken := by decide

theorem witness_idle : fresh.block.busy = false := rfl

theorem witness_WholeFrameResidueIsZero : (zeros 65528).length ≤ 65528 := by simp [zeros_length]

theorem witness_OneByteChangeChangesCrc : CrcParams.modbus.poly.getLsbD 0 = true ∧ (0x01 : Byte) ≠ 0x00 := by decide

theorem witness_EncodeAnswersFrame :
    fresh.block.busy = false ∧ (zeros 65528).length ≤ 65528 := ⟨rfl, by simp [zeros_length]⟩

theorem witness_EncodeTooLongRefused : 65528 < (zeros 65529).length := by simp [zeros_length]

theorem witness_HuntTakesSync :
    ((reading .hunt 0 0 [0x55]).Reads .hunt ∧ (reading .hunt 0 0 [0x55]).rxBytes = 0x55 :: []) ∧
      ((reading .hunt 0 0 [0x56]).Reads .hunt ∧ (reading .hunt 0 0 [0x56]).rxBytes = 0x56 :: [] ∧
        (0x56 : Byte) ≠ 0x55) := by decide

/-- A block that is idle, and one that is reading and whose step answers a next state. -/
theorem witness_ReadPacketTaken :
    fresh.block.busy = false ∧ (reading .hunt 0 0 []).block.busy = true ∧
      ∃ t, blockTurn (reading .hunt 0 0 []) = .next t := ⟨rfl, rfl, _, rfl⟩

theorem witness_HuntSkipsNoise :
    (reading .hunt 0 0 [0x54]).Reads .hunt ∧ (0x54 : Byte) ≠ 0x55 ∧ (reading .hunt 0 0 [0x54]).rxBytes = 0x54 :: [] := by
  decide

theorem witness_LengthLowByteRead :
    (reading .lenLo 0xFF00 0 [0x0A]).Reads .lenLo ∧ (reading .lenLo 0xFF00 0 [0x0A]).rxBytes = 0x0A :: [] := by decide

/-- Both sides of the least length. -/
theorem witness_LengthHighByteChecked :
    (reading .lenHi 6 0 [0]).Reads .lenHi ∧ (half 6 0).toNat < 7 ∧
      (reading .lenHi 7 0 [0]).Reads .lenHi ∧ ¬ (half 7 0).toNat < 7 := by decide

theorem witness_HeaderBytesRead :
    (reading .func 7 0 [4]).Reads .func ∧ (reading .addr1 7 0 [3]).Reads .addr1 ∧
      (reading .addr2 7 0 [5]).Reads .addr2 ∧ (reading .addr2 8 0 [5]).Reads .addr2 ∧
      (reading .addr2 8 0 [5]).rxBytes = 5 :: [] := by decide

/-- The last payload byte, one before it, and the last index of the buffer. -/
theorem witness_DataByteStored :
    ((reading .data 10 2 [1]).Reads .data ∧ (reading .data 10 2 [1]).block.RegisterInv) ∧
      ((reading .data 10 1 [1]).Reads .data ∧ (reading .data 10 1 [1]).block.RegisterInv) ∧
      ((reading .data 0xFFFF 65527 [1]).Reads .data ∧ (reading .data 0xFFFF 65527 [1]).block.RegisterInv) := by decide

theorem witness_ChecksumLowByteRead : (reading .crcLo 10 3 [0x9D]).Reads .crcLo := by decide

/-- A running CRC of 0xA000 finalises to 0x0005: the high byte 0 matches the low byte 5, the high byte 1 does not. -/
theorem witness_ChecksumCompared :
    let s := { reading .crcHi 10 3 [0] with
      block := { (reading .crcHi 10 3 [0]).block with rxAcc := 0xA000, crcRxLo := 5 } }
    s.Reads .crcHi ∧ s.rxBytes = 0 :: [] ∧ crcFinal s.config.crc s.block.rxAcc = half 5 0 ∧
      crcFinal s.config.crc s.block.rxAcc ≠ half 5 1 := by decide

/-- A state in CRC_HI whose running CRC is that of the frame's covered bytes. -/
theorem witness_ChecksumCompared_invariant :
    let b := { (reading .crcHi 7 0 [0]).block with
      rxAcc := crcFold CrcParams.modbus CrcParams.modbus.init [0x55, 7, 0, 0, 0, 0] }
    ({ reading .crcHi 7 0 [0] with block := b } : State).Reads .crcHi ∧ b.ChecksumInv CrcParams.modbus := by
  refine ⟨by decide, ?_, by simp [reading, fresh, State.resetWith, Block.reset]⟩
  intro bytes h
  cases h
  decide +kernel

theorem witness_EndOfStreamTruncates :
    let s := { reading .crcHi 10 3 [] with rxEof := true }
    s.Reads .crcHi ∧ RxPhase.crcHi ≠ .idle ∧ s.rxBytes = [] ∧ s.rxEof = true := by decide

theorem witness_EmptyStreamHolds :
    let s := reading .hunt 0 0 []
    s.Reads .hunt ∧ RxPhase.hunt ≠ .idle ∧ s.rxBytes = [] ∧ s.rxEof = false ∧ s.block.modelFault = none ∧
      s.turns = [] ∧ s.host.point = .stopped := by decide

theorem witness_CancelEndsRead : (reading .hunt 0 0 []).block.busy = true ∧ fresh.block.busy = false := by decide

theorem witness_FrameReadsBack :
    let bytes := [0x12, 0x34] ++ encodeFrame CrcParams.modbus 4 3 5 [1, 1, 1] ++ [0x55]
    let s := { withCommands [⟨3, []⟩, ⟨4, []⟩] with rxBytes := bytes }
    s.TakesCommand ∧ Memory.wf s.block.payBuf ∧ s.cmdPort = ⟨0x00000003, []⟩ :: [⟨4, []⟩] ∧
      (∀ x ∈ [(0x12 : Byte), 0x34], x ≠ 0x55) ∧ [(1 : Byte), 1, 1].length ≤ 65528 ∧
      s.rxBytes = [0x12, 0x34] ++ encodeFrame s.config.crc 4 3 5 [1, 1, 1] ++ [0x55] :=
  ⟨by decide, by decide, rfl, by decide, by decide, rfl⟩

theorem witness_DecisionTable :
    ([0x01, 0x00, 0x00] : List Byte) ∉ occupancyPayloads ∧ ([] : List Byte).length ≠ 4 ∧
      ¬ ((3 : Byte) = 3 ∧ (7 : Byte) = 5) ∧ ¬ ((3 : Byte) = 3 ∧ (7 : Byte) = 6) ∧ (5 : Byte) ≠ 4 := by decide

theorem witness_SilentRowsAnswerNone :
    Instr.envOther [7] = .envOther [7] ∧ Instr.nonReport 1 2 3 [] = .nonReport 1 2 3 [] := by decide

/-- Each row at the point that is the other's, and with no program running. -/
theorem witness_SetParamRowsDecodeToNone :
    (∀ r, (atPoint (.handshakeWait .roomType)).host.point ≠ .handshakeSend r) ∧
      (∀ r, (atPoint (.handshakeSend .roomType)).host.point ≠ .handshakeWait r) ∧
      (∀ r, fresh.host.point ≠ .handshakeSend r) ∧ (∀ r, fresh.host.point ≠ .handshakeWait r) := by
  refine ⟨?_, ?_, ?_, ?_⟩ <;> intro r h <;> cases h

theorem witness_DecodeRunsThePacketsRow :
    let s := holding 4 3 6
    s.block.pktValid = true ∧ s.host.point.handshakes = false ∧
      decode (.packet (packetKey s.block.funcReg s.block.a1Reg s.block.a2Reg) s.block.payload) =
        .ok (.bodyOtherLen []) := by decide

/-- Both ends of the normal exponents, zero, infinity and a NaN. -/
theorem witness_BodyValueFormula :
    ((0x00800000 : Word).extractLsb' 23 8).toNat = 1 ∧ ((0x7F000000 : Word).extractLsb' 23 8).toNat = 254 ∧
      ((0x80000001 : Word).extractLsb' 23 8).toNat = 0 ∧ ((0xFF800000 : Word).extractLsb' 23 8).toNat = 255 ∧
      ((0xFF800000 : Word).extractLsb' 0 23).toNat = 0 ∧ ((0x7FC00000 : Word).extractLsb' 0 23).toNat ≠ 0 := by decide

/-- Both ends of the numbers and of the payload index. -/
theorem witness_ViewReadHasNoSideEffect :
    fresh.block.modelFault = none ∧
      ({ fresh with turns := [.viewRead 15 0] } : State).turns = .viewRead 15 0 :: [] ∧ 15 ≤ 15 ∧ 15 < 16 ∧
      (6 = 6 ∧ 65527 ≤ 65527) ∧ 65527 < 65528 := by decide

theorem witness_SetParamIssuesEncode :
    ((atPoint (.handshakeSend .roomType)).host.point = .handshakeSend .roomType ∧ (zeros 65528).length ≤ 65528) ∧
      (let s := answered (.handshakeFrame .roomType) (.frame [0x55])
       s.host.point = .handshakeFrame .roomType ∧ s.ownResponse = some (.frame [0x55], s.readResponses)) ∧
      (atPoint (.sendIssue 4 3 5 [1])).host.point = .sendIssue 4 3 5 [1] ∧
      (let s := answered .sendWait (.frame [0x55])
       s.host.point = .sendWait ∧ s.ownResponse = some (.frame [0x55], s.readResponses)) ∧
      (atPoint .sendWait).ownResponse = none ∧ (atPoint (.handshakeFrame .roomType)).ownResponse = none :=
  ⟨⟨rfl, by simp [zeros_length]⟩, by decide⟩

/-- Each outcome of an acknowledgment, for both registers. -/
theorem witness_AckMovesHandshake :
    let s := atPoint (.handshakeWait .roomType)
    let u := atPoint (.handshakeWait .gearThreshold)
    (s.host.point = .handshakeWait .roomType ∧
      encodeValue s.config.hsValueEnc (s.host.sensor.value .roomType) = some [1] ∧ s.config.hsAddr1 = 4 ∧
      SensorReg.address2 .roomType = 0x10) ∧
    (u.host.point = .handshakeWait .gearThreshold ∧
      encodeValue u.config.hsValueEnc (u.host.sensor.value .gearThreshold) = some [3] ∧ u.config.hsAddr1 = 4 ∧
      SensorReg.address2 .gearThreshold = 0x0C) ∧
    [(2 : Byte)] ≠ [1] ∧ ¬ ((4 : Byte) = 4 ∧ (0x0C : Byte) = 0x10) := by decide

/-- Both ends of the one-byte range, and a bound already reached or not. -/
theorem witness_HandshakeSendBounded :
    (atPoint (.handshakeSend .roomType)).host.point = .handshakeSend .roomType ∧
      encodeValue .oneByte (-1) = none ∧ encodeValue .oneByte 0 = some [0] ∧ encodeValue .oneByte 255 = some [0xFF] ∧
      encodeValue .oneByte 256 = none ∧ (none : Option Nat) ≠ some 0 ∧ some 0 = some fresh.host.sends := by decide

theorem witness_HandshakeReadOutcomes :
    let s := answered (.handshakeWait .roomType) (.read .packetOk (some (ackPacket 0x10 1)))
    let u := answered (.handshakeWait .roomType) (.read .truncated none)
    let v := answered (.handshakeWait .roomType) (.read .packetOk (some (ackPacket 0x0C 3)))
    s.ownResponse = some (.read .packetOk (some (ackPacket 0x10 1)), s.readResponses) ∧
      u.ownResponse = some (.read .truncated none, u.readResponses) ∧
      v.ownResponse = some (.read .packetOk (some (ackPacket 0x0C 3)), v.readResponses) ∧
      s.host.point = .handshakeWait .roomType ∧ (atPoint (.handshakeWait .roomType)).ownResponse = none ∧
      (atPoint (.handshakeRead .roomType)).host.point = .handshakeRead .roomType := by decide

theorem witness_GearOnlyAfterRoomAck :
    let s := answered (.handshakeWait .roomType) (.read .packetOk (some (ackPacket 0x10 1)))
    s.host.point.inGearHandshake = false ∧ After (step s) (fun t => t.host.point.inGearHandshake) := by decide

/-- Every kind of status at run_loop's read, and one at READ_EVENT's. -/
theorem witness_LoopReadOutcomes :
    (∀ st ∈ [Status.truncated, .cancelled, .packetOk, .checksumMismatch],
      let s := answered .loopReadWait (.read st none)
      s.host.point = .loopReadWait ∧ s.ownResponse = some (.read st none, s.readResponses)) ∧
    (let s := answered .eventReadWait (.read .malformedLength none)
     s.host.point = .eventReadWait ∧ s.ownResponse = some (.read .malformedLength none, s.readResponses)) ∧
    (atPoint .loopReadWait).ownResponse = none ∧ (atPoint .loopReadIssue).host.point = .loopReadIssue := by decide

/-- A step that leaves run_loop, by each of the two statuses. -/
theorem witness_LoopReadOutcomes_end :
    ∀ st ∈ [Status.truncated, .cancelled],
      (answered .loopReadWait (.read st none)).host.point.inLoop = true ∧
        After (step (answered .loopReadWait (.read st none))) (fun t => !t.host.point.inLoop) := by decide

theorem witness_LoopDeliversEvent :
    (∀ ev ∈ [EventCode.occupiedMoving, .none],
      let s := answered .loopDecodeWait (.decoded ev 0)
      s.host.point = .loopDecodeWait ∧ s.ownResponse = some (.decoded ev 0, s.readResponses)) ∧
    (let s := answered .eventDecodeWait (.decoded .bodyData 7)
     s.host.point = .eventDecodeWait ∧ s.ownResponse = some (.decoded .bodyData 7, s.readResponses)) ∧
    (atPoint .eventDecodeWait).ownResponse = none ∧ (atPoint .loopDecodeIssue).host.point = .loopDecodeIssue := by decide

theorem witness_SinkGetsOnlyDecodedEvents :
    After (step (answered .loopDecodeWait (.decoded .occupiedMoving 0)))
      (fun t => t.host.sink = [⟨.occupiedMoving, 0⟩]) ∧
    After (step { fresh with turns := [.sink ⟨.unoccupied, 0⟩] }) (fun t => t.host.sink = [⟨.unoccupied, 0⟩]) := by
  decide

/-- A state in the middle of a frame that meets both invariants of the step, and whose step answers a next state. -/
theorem witness_StepKeepsInvariants :
    let s := { reading .lenLo 0 0 [0x0A] with
      block := { (reading .lenLo 0 0 []).block with rxAcc := crcFold CrcParams.modbus CrcParams.modbus.init [0x55] } }
    s.block.RegisterInv ∧ s.block.ChecksumInv s.config.crc ∧ After (step s) (fun t => t.block.rxState = 3) := by
  refine ⟨by decide, ⟨?_, by simp [reading, fresh, State.resetWith, Block.reset]⟩, by decide⟩
  intro bytes h
  cases h
  decide

/-- Any step of a fresh machine answers a next state, as ParametersNeverChange and StreamIsReadInOrder ask. -/
theorem witness_ParametersNeverChange : After (step (withCommands [⟨3, []⟩])) (fun _ => true) := by decide

/-- The CRC high byte of a frame whose checksum matches makes the packet valid. -/
theorem witness_OnlyMatchSetsPktValid :
    let s := { reading .crcHi 10 3 [0] with
      block := { (reading .crcHi 10 3 [0]).block with rxAcc := 0xA000, crcRxLo := 5 } }
    s.block.pktValid = false ∧ After (step s) (fun t => t.block.pktValid) := by decide

theorem witness_PortsKeepTheirRecords :
    ∃ t, blockTurn (withCommands [⟨4, []⟩]) = .next t ∧ (withCommands [⟨4, []⟩]).rst = false := ⟨_, rfl, rfl⟩

end Sys2Proof.Tests
end

section
/-!
SUPPORT. The scope of a step: which agent's move it is, what each listed turn makes of the state, and that no move
touches the parameters.
-/

namespace Sys2Proof.Machine

/-- The block's step leaves the parameters of R9 alone (R38, R178). -/
theorem blockTurn_config {s t : State} (h : blockTurn s = .next t) : t.config = s.config := by
  rcases blockTurn_next h with ⟨-, rfl⟩ | ⟨-, -, -, rfl⟩ |
    ⟨-, -, -, _, -, -, ⟨-, -, rfl⟩ | ⟨-, -, rfl⟩ | ⟨_, _, -, rfl⟩⟩ | ⟨-, -, ⟨-, rfl⟩ | ⟨_, _, _, -, -, e, -⟩⟩
  case inr.inr.inr.inr => rw [e]; rfl
  all_goals rfl

/-- With no model fault a step is the next move (R6, R162). -/
theorem step_eq_nextTurn {s : State} (hm : s.block.modelFault = none) : step s = nextTurn s := by
  simp only [step, stepMachine, hm]

/-- With no turn listed the default agent moves. -/
theorem step_eq_defaultTurn {s : State} (hm : s.block.modelFault = none) (ht : s.turns = []) :
    step s = defaultTurn s := by
  simp only [step_eq_nextTurn hm, nextTurn, ht]

/-- A listed turn is used up and its agent moves. -/
theorem step_eq_agentTurn {s : State} (hm : s.block.modelFault = none) {turn : Turn} {rest : List Turn}
    (ht : s.turns = turn :: rest) : step s = agentTurn turn { s with turns := rest } := by
  simp only [step_eq_nextTurn hm, nextTurn, ht]

/-- A host with no program running makes the move. -/
theorem State.whenFree_of_stopped {s : State} (hp : s.host.point = .stopped) (t : State) : s.whenFree t = .next t := by
  simp [State.whenFree, State.programRuns, hp]

/-- A host whose program runs makes no other move (assumption 11). -/
theorem State.whenFree_of_running {s : State} (hp : s.host.point ≠ .stopped) (t : State) : s.whenFree t = .next s := by
  simp [State.whenFree, State.programRuns, hp]

theorem agentTurn_of_running {s : State} (hp : s.host.point ≠ .stopped) {turn : Turn}
    (hf : turn.needsFreeHost = true) : agentTurn turn s = .next s := by
  cases turn
  case command | takeResponse | write | sink | start => exact State.whenFree_of_running hp _
  all_goals cases hf

/-- After the end of the stream nothing is appended (R42, assumption 17). -/
theorem State.appendByte_eq (s : State) (b : Byte) :
    s.appendByte b = { s with rxBytes := if s.rxEof = true then s.rxBytes else s.rxBytes ++ [b] } := by
  unfold State.appendByte
  split <;> rfl

/-- The host's own SINK delivers no NONE (R138, assumption 29). -/
theorem State.sinkEvent_eq (s : State) (e : Event) :
    s.sinkEvent e =
      { s with host := { s.host with sink := if e.code = .none then s.host.sink else s.host.sink ++ [e] } } := by
  unfold State.sinkEvent
  split <;> rfl

/-- Starting a program changes the host's side alone, as R77, R139, R142 and R149 say. -/
theorem State.startProgram_starts (s : State) (p : Program) :
    ∃ h, s.startProgram p = s.setHost h ∧ s.Starts p h := by
  cases p <;> exact ⟨_, rfl, rfl⟩

/-- What a host starts with does not depend on the turns listed. -/
theorem State.starts_withTurns {s : State} {ts : List Turn} {p : Program} {h : HostSide} :
    State.Starts { s with turns := ts } p h ↔ s.Starts p h := by
  cases p <;> rfl

/-- Settles O55: the block's step and every other agent's move keep the parameters. -/
theorem parametersNeverChange : Obligations.ParametersNeverChange := by
  intro s t h
  obtain ⟨-, ⟨ts, hb⟩ | ⟨hu, -⟩⟩ := step_cases h
  · exact blockTurn_config (s := { s with turns := ts }) hb
  · exact hu.config

/-- Settles O7: a step is the default agent's move or the listed turn's, and each turn's move is the law of its own
operation; a turn of the host's own passes through `whenFree`. -/
theorem stepMakesTheNextMove : Obligations.StepMakesTheNextMove := by
  intro s hm
  refine ⟨fun ht he => (step_eq_defaultTurn hm ht).trans (if_pos he),
    fun ht he => (step_eq_defaultTurn hm ht).trans (if_neg (by simp [he])), fun rest => ?_⟩
  have listed {turn : Turn} (ht : s.turns = turn :: rest) := step_eq_agentTurn hm ht
  refine ⟨listed, listed, fun b ht => ?_, listed, listed, listed, fun ht hl => ?_, fun r rs ht hl => ?_,
    fun hp => ?_, fun hp turn ht hf => ?_⟩
  · rw [listed ht, agentTurn, State.appendByte_eq]
  · simp only [listed ht, agentTurn, State.takeLog, hl]
  · simp only [listed ht, agentTurn, State.takeLog, hl]
  · have free (u : State) := State.whenFree_of_stopped (s := { s with turns := rest }) hp u
    refine ⟨fun c ht => ?_, fun ht hr => ?_, fun r rs ht hr => ?_, fun bytes ht => ?_, fun e ht => ?_, fun p ht => ?_⟩
    · rw [listed ht, agentTurn, free, State.putCommand]
    · simp only [listed ht, agentTurn, free, State.takeResponse, hr]
    · simp only [listed ht, agentTurn, free, State.takeResponse, hr]
    · rw [listed ht, agentTurn, free, State.writeTx, State.setHost]
    · rw [listed ht, agentTurn, free, State.sinkEvent_eq]
    · obtain ⟨h, hstart, hh⟩ := State.startProgram_starts { s with turns := rest } p
      exact ⟨h, by rw [listed ht, agentTurn, free, hstart, State.setHost], State.starts_withTurns.1 hh⟩
  · rw [listed ht]
    exact agentTurn_of_running (s := { s with turns := rest }) hp hf

end Sys2Proof.Machine
end

section
/-!
SUPPORT. The register invariants of R40 as two shapes, a block that is idle and a block that reads in a named state of
the framer, and that every move of every agent leads from one of them to one of them.
-/

namespace Sys2Proof.Machine

/-- What the register invariants say of a block with no READ_PACKET running (R23, R29, R32, R40). -/
structure Block.Idle (b : Block) : Prop where
  state : b.rxState = RxPhase.idle.code
  busy : b.busy = false
  curOp : b.curOp = 0
  payBuf : b.payBuf.wf
  pktValid : b.pktValid = true → b.lastResult = .packetOk

/-- What the register invariants say of a READ_PACKET running in a state of the framer (R26, R29, R40). -/
structure Block.Running (ph : RxPhase) (b : Block) : Prop where
  reads : ph ≠ .idle
  state : b.rxState = ph.code
  busy : b.busy = true
  curOp : b.curOp = 3
  length : 4 ≤ ph.code.toNat → 7 ≤ b.lenReg.toNat
  storing : ph = .data → b.payCnt.toNat < payloadLength b.lenReg
  stored : ph = .crcLo ∨ ph = .crcHi → b.payCnt.toNat = payloadLength b.lenReg
  payBuf : b.payBuf.wf
  pktValid : b.pktValid = false

theorem RxPhase.code_le_nine (ph : RxPhase) : ph.code.toNat ≤ 9 := by cases ph <;> decide

theorem RxPhase.code_inj {ph ph' : RxPhase} : ph.code = ph'.code ↔ ph = ph' :=
  ⟨fun h => Option.some.inj (by rw [← rxPhase_code ph, h, rxPhase_code]), congrArg _⟩

theorem Block.registerInv_iff {b : Block} :
    b.RegisterInv ↔ b.rxState.toNat ≤ 9 ∧ b.Coherent ∧ (b.busy = false → b.curOp = 0) ∧ b.payBuf.wf ∧
      (b.pktValid = true → b.lastResult = .packetOk) := by
  rw [Block.RegisterInv, Block.modelFault_eq_none, and_assoc]

theorem Block.Idle.registerInv {b : Block} (h : b.Idle) : b.RegisterInv :=
  Block.registerInv_iff.2
    ⟨by simp [h.state, RxPhase.code], by simp [Block.Coherent, h.state, h.busy, RxPhase.code], fun _ => h.curOp,
      h.payBuf, h.pktValid⟩

theorem Block.Running.registerInv {ph : RxPhase} {b : Block} (h : b.Running ph) : b.RegisterInv := by
  have coherent : b.Coherent := by
    refine ⟨?_, fun _ => h.curOp, ?_, ?_, ?_, by simp [h.pktValid]⟩ <;> rw [h.state]
    · simpa [h.busy, RxPhase.code_inj] using h.reads
    · exact fun hl => h.length hl.1
    · exact fun hs => h.storing (RxPhase.code_inj.1 hs)
    · exact fun hs => h.stored (hs.imp RxPhase.code_inj.1 RxPhase.code_inj.1)
  exact Block.registerInv_iff.2
    ⟨h.state ▸ ph.code_le_nine, coherent, by simp [h.busy], h.payBuf, by simp [h.pktValid]⟩

theorem Block.RegisterInv.idle {b : Block} (h : b.RegisterInv) (hb : b.busy = false) : b.Idle := by
  obtain ⟨-, ⟨hbusy, -⟩, hop, hpay, hok⟩ := Block.registerInv_iff.1 h
  exact ⟨by simpa [hb] using hbusy, hb, hop hb, hpay, hok⟩

theorem Block.RegisterInv.running {ph : RxPhase} {b : Block} (h : b.RegisterInv) (hs : b.rxState = ph.code)
    (hph : ph ≠ .idle) : b.Running ph := by
  obtain ⟨-, ⟨hbusy, hop, hlen, hdata, hcrc, hvalid⟩, -, hpay, -⟩ := Block.registerInv_iff.1 h
  have hne : b.rxState ≠ RxPhase.idle.code := by rw [hs]; exact fun e => hph (RxPhase.code_inj.1 e)
  have busy := hbusy.2 hne
  rw [hs] at hlen hdata hcrc
  exact
    { reads := hph, state := hs, busy := busy, curOp := hop busy, payBuf := hpay
      length := fun h4 => hlen ⟨h4, ph.code_le_nine⟩
      storing := fun e => hdata (congrArg _ e)
      stored := fun e => hcrc (e.imp (congrArg _) (congrArg _))
      pktValid := by simpa using fun hv => hne (hvalid hv) }

/-- A busy block reads in some state of the framer. -/
theorem Block.RegisterInv.running_of_busy {b : Block} (h : b.RegisterInv) (hb : b.busy = true) :
    ∃ ph, b.Running ph := by
  obtain ⟨hle, ⟨hbusy, -⟩, -⟩ := Block.registerInv_iff.1 h
  cases hp : rxPhase b.rxState with
  | none => exact absurd (rxPhase_eq_none.1 hp) (by omega)
  | some ph =>
    have hs := rxPhase_eq_some hp
    have hph : ph ≠ .idle := fun e => hbusy.1 hb (by rw [hs, e])
    exact ⟨ph, h.running hs hph⟩

/-- The register invariants do not speak of the records on the two ports. -/
theorem Block.registerInv_ports {b : Block} {rp : List Response} {lp : List LogRecord} :
    Block.RegisterInv { b with respPort := rp, logPort := lp } ↔ b.RegisterInv := Iff.rfl

theorem Block.reset_idle (p : CrcParams) : (Block.reset p).Idle :=
  ⟨rfl, rfl, rfl, by simp [Block.reset, Memory.wf], nofun⟩

/-- What ends a READ_PACKET leaves the block idle (R103, R165). -/
theorem Block.finish_idle {b : Block} {st : Status} (hp : b.payBuf.wf) (hv : b.pktValid = true → st = .packetOk) :
    (b.finish st).Idle :=
  ⟨rfl, rfl, rfl, hp, hv⟩

theorem Block.Running.finish_idle {ph : RxPhase} {b : Block} (h : b.Running ph) (st : Status) : (b.finish st).Idle :=
  Block.finish_idle h.payBuf (by simp [h.pktValid])

theorem Block.Running.rxEnd_idle {ph : RxPhase} {b : Block} (h : b.Running ph) : (rxEnd b).Idle :=
  Block.finish_idle h.payBuf (by simp [h.pktValid])

/-- READ_PACKET is taken into HUNT (R100). -/
theorem Block.Idle.taken_running {b : Block} (h : b.Idle) :
    Block.Running .hunt
      { b with busy := true, curOp := 3, pktValid := false, payCnt := 0, rxState := RxPhase.hunt.code } :=
  ⟨nofun, rfl, rfl, rfl, (absurd · (by decide)), nofun, nofun, h.payBuf, rfl⟩

/-! ## One byte of the stream, state by state (R104 to R115) -/

theorem rxHunt_running_sync {b : Block} (p : CrcParams) (h : b.Running .hunt) :
    (rxHunt p b sync).Running .lenLo :=
  ⟨nofun, rfl, h.busy, h.curOp, (absurd · (by decide)), nofun, nofun, h.payBuf, h.pktValid⟩

theorem rxHunt_running_noise {b : Block} (p : CrcParams) {x : Byte} (h : b.Running .hunt) (hx : x ≠ sync) :
    (rxHunt p b x).Running .hunt := by
  rw [rxHunt, if_neg hx]
  exact ⟨nofun, rfl, h.busy, h.curOp, (absurd · (by decide)), nofun, nofun, h.payBuf, h.pktValid⟩

theorem rxLenLo_running {b : Block} (p : CrcParams) (x : Byte) (h : b.Running .lenLo) :
    (rxLenLo p b x).Running .lenHi :=
  ⟨nofun, rfl, h.busy, h.curOp, (absurd · (by decide)), nofun, nofun, h.payBuf, h.pktValid⟩

theorem rxLenHi_idle {b : Block} (p : CrcParams) {x : Byte} (h : b.Running .lenHi)
    (hx : (half (byteLo b.lenReg) x).toNat < 7) : (rxLenHi p b x).Idle := by
  rw [rxLenHi, if_pos hx]
  exact Block.finish_idle h.payBuf (by simp [h.pktValid])

theorem rxLenHi_running {b : Block} (p : CrcParams) {x : Byte} (h : b.Running .lenHi)
    (hx : ¬ (half (byteLo b.lenReg) x).toNat < 7) : (rxLenHi p b x).Running .func := by
  rw [rxLenHi, if_neg hx]
  exact ⟨nofun, rfl, h.busy, h.curOp, fun _ => not_lt.1 hx, nofun, nofun, h.payBuf, h.pktValid⟩

theorem rxFunc_running {b : Block} (p : CrcParams) (x : Byte) (h : b.Running .func) :
    (rxFunc p b x).Running .addr1 :=
  ⟨nofun, rfl, h.busy, h.curOp, fun _ => h.length (by decide), nofun, nofun, h.payBuf, h.pktValid⟩

theorem rxAddr1_running {b : Block} (p : CrcParams) (x : Byte) (h : b.Running .addr1) :
    (rxAddr1 p b x).Running .addr2 :=
  ⟨nofun, rfl, h.busy, h.curOp, fun _ => h.length (by decide), nofun, nofun, h.payBuf, h.pktValid⟩

/-- After the header the payload is stored, or with length 7 the checksum is next (R110). -/
theorem rxAddr2_running {b : Block} (p : CrcParams) (x : Byte) (h : b.Running .addr2) :
    ∃ ph, (ph = .data ∨ ph = .crcLo) ∧ (rxAddr2 p b x).Running ph := by
  have hlen := h.length (by decide)
  by_cases h7 : b.lenReg = 7
  · refine ⟨.crcLo, .inr rfl, nofun, if_pos h7, h.busy, h.curOp, fun _ => hlen, nofun, fun _ => ?_,
      h.payBuf, h.pktValid⟩
    simp [rxAddr2, payloadLength, h7]
  · refine ⟨.data, .inl rfl, nofun, if_neg h7, h.busy, h.curOp, fun _ => hlen, fun _ => ?_, nofun,
      h.payBuf, h.pktValid⟩
    have : b.lenReg.toNat ≠ 7 := fun e => h7 (BitVec.eq_of_toNat_eq e)
    simp only [rxAddr2, payloadLength, BitVec.ofNat_eq_ofNat, BitVec.toNat_ofNat, Nat.zero_mod]
    omega

/-- The payload's count does not wrap, and its end is told by the 16-bit comparison of R111. -/
theorem Block.Running.payCnt_succ {b : Block} (h : b.Running .data) :
    (b.payCnt + 1).toNat = b.payCnt.toNat + 1 ∧
      (b.payCnt + 1 = b.lenReg - 7 ↔ b.payCnt.toNat + 1 = payloadLength b.lenReg) := by
  have hlen := h.length (by decide)
  have hcnt := h.storing rfl
  unfold payloadLength at hcnt ⊢
  constructor <;> bv_omega

/-- Payload bytes are stored until the count reaches the payload's length (R111). -/
theorem rxData_running {b : Block} (p : CrcParams) (x : Byte) (h : b.Running .data) :
    ∃ ph, (ph = .data ∨ ph = .crcLo) ∧ (rxData p b x).Running ph := by
  have hlen := h.length (by decide)
  have hcnt := h.storing rfl
  obtain ⟨hsucc, hend⟩ := h.payCnt_succ
  have hsize : b.payCnt.toNat < paySize := by
    have := b.lenReg.isLt
    unfold payloadLength at hcnt
    unfold paySize
    omega
  have hwf := Memory.write_wf h.payBuf hsize x
  by_cases hlast : b.payCnt + 1 = b.lenReg - 7
  · exact ⟨.crcLo, .inr rfl, nofun, if_pos hlast, h.busy, h.curOp, fun _ => hlen, nofun,
      fun _ => hsucc.trans (hend.1 hlast), hwf, h.pktValid⟩
  · refine ⟨.data, .inl rfl, nofun, if_neg hlast, h.busy, h.curOp, fun _ => hlen, fun _ => ?_, nofun,
      hwf, h.pktValid⟩
    have hne := mt hend.2 hlast
    simp only [rxData, hsucc]
    omega

theorem rxCrcLo_running {b : Block} (x : Byte) (h : b.Running .crcLo) : (rxCrcLo b x).Running .crcHi :=
  ⟨nofun, rfl, h.busy, h.curOp, fun _ => h.length (by decide), nofun, fun _ => h.stored (.inl rfl),
    h.payBuf, h.pktValid⟩

/-- The checksum ends the read, with the packet or with a mismatch (R113 to R115). -/
theorem rxCrcHi_idle {b : Block} (p : CrcParams) (x : Byte) (h : b.Running .crcHi) : (rxCrcHi p b x).Idle := by
  simp only [rxCrcHi]
  split
  · exact Block.finish_idle h.payBuf fun _ => rfl
  · exact Block.finish_idle h.payBuf (by simp [h.pktValid])

/-- A byte taken keeps the register invariants, in every state of the framer (R102). -/
theorem Block.Running.rxByte_registerInv {ph : RxPhase} {b : Block} (h : b.Running ph)
    (p : CrcParams) (x : Byte) : (rxByte p ph b x).RegisterInv := by
  cases ph with
  | idle => exact absurd rfl h.reads
  | hunt =>
    by_cases hx : x = sync
    · exact hx ▸ (rxHunt_running_sync p h).registerInv
    · exact (rxHunt_running_noise p h hx).registerInv
  | lenLo => exact (rxLenLo_running p x h).registerInv
  | lenHi =>
    by_cases hx : (half (byteLo b.lenReg) x).toNat < 7
    · exact (rxLenHi_idle p h hx).registerInv
    · exact (rxLenHi_running p h hx).registerInv
  | func => exact (rxFunc_running p x h).registerInv
  | addr1 => exact (rxAddr1_running p x h).registerInv
  | addr2 =>
    obtain ⟨ph, rfl | rfl, hr⟩ := rxAddr2_running p x h <;> exact hr.registerInv
  | data =>
    obtain ⟨ph, rfl | rfl, hr⟩ := rxData_running p x h <;> exact hr.registerInv
  | crcLo => exact (rxCrcLo_running x h).registerInv
  | crcHi => exact (rxCrcHi_idle p x h).registerInv

/-- The block's step keeps the register invariants. -/
theorem blockTurn_registerInv {s t : State} (hs : s.block.RegisterInv) (h : blockTurn s = .next t) :
    t.block.RegisterInv := by
  rcases blockTurn_next h with ⟨-, rfl⟩ | ⟨-, hb, -, rfl⟩ |
    ⟨-, -, -, ph, hst, hph, ⟨-, -, rfl⟩ | ⟨-, -, rfl⟩ | ⟨x, rest, -, rfl⟩⟩ |
    ⟨-, hb, ⟨-, rfl⟩ | ⟨c, rest, i, -, -, -, e | ⟨r, e⟩⟩⟩
  · exact (Block.reset_idle _).registerInv
  · obtain ⟨ph, hr⟩ := hs.running_of_busy hb
    exact (hr.finish_idle _).registerInv
  · exact hs
  · exact (hs.running hst hph).rxEnd_idle.registerInv
  · exact (hs.running hst hph).rxByte_registerInv _ x
  · exact hs
  · exact e ▸ (hs.idle hb).taken_running.registerInv
  · exact e ▸ hs

/-- Settles O53: the block's step leads from an idle or running block to one, and every other agent leaves all but the
records on the ports alone. -/
theorem stepKeepsRegisterInv : Obligations.StepKeepsRegisterInv := by
  intro s t hs h
  obtain ⟨-, ⟨ts, hb⟩ | ⟨⟨-, -, rp, lp, e⟩, -⟩⟩ := step_cases h
  · exact blockTurn_registerInv (s := { s with turns := ts }) hs hb
  · exact e ▸ Block.registerInv_ports.2 hs

end Sys2Proof.Machine
end

section
/-!
SUPPORT. The checksum invariants: each byte taken after the sync byte extends both the running CRC and the frame bytes
read back from the registers, so the comparison in CRC_HI is that of the frame's covered bytes.
-/

namespace Sys2Proof.Machine

/-- One more byte is one more crcStep (R84, R89). -/
@[simp] theorem crcFold_concat (p : CrcParams) (c : Half) (bytes : List Byte) (x : Byte) :
    crcFold p c (bytes ++ [x]) = crcStep p (crcFold p c bytes) x := by
  simp [crcFold]

/-- The covered bytes a running READ_PACKET has stored so far: the header, and the payload up to `pay_cnt` (R118). -/
def Block.storedBytes (b : Block) : List Byte :=
  frameHeader b.lenReg b.funcReg b.a1Reg b.a2Reg ++ Memory.slice b.payBuf 0 b.payCnt.toNat

theorem Block.absorbed_eq_none {b : Block} (h : b.rxState = RxPhase.idle.code ∨ b.rxState = RxPhase.hunt.code) :
    b.absorbed = none := by
  rcases h with h | h <;> simp [Block.absorbed, h]

@[simp] theorem Block.finish_absorbed (b : Block) (st : Status) : (b.finish st).absorbed = none :=
  Block.absorbed_eq_none (.inl rfl)

/-- Once the payload is whole, the bytes stored are the frame's covered bytes. -/
theorem Block.storedBytes_eq {b : Block} (h : b.payCnt.toNat = payloadLength b.lenReg) :
    b.storedBytes = frameHeader b.lenReg b.funcReg b.a1Reg b.a2Reg ++ b.payload := by
  rw [Block.storedBytes, h, Block.payload]

/-- From the payload on, the bytes absorbed are the bytes stored, the checksum's own two not among them (R118). -/
theorem Block.Running.absorbed_storedBytes {ph : RxPhase} {b : Block} (h : b.Running ph)
    (hph : ph = .data ∨ ph = .crcLo ∨ ph = .crcHi) : b.absorbed = some b.storedBytes := by
  rcases hph with rfl | hph
  · simp [Block.absorbed, Block.storedBytes, h.state]
  · rw [Block.storedBytes_eq (h.stored hph)]
    rcases hph with rfl | rfl <;> simp [Block.absorbed, h.state]

/-- Where no frame has begun and no packet is valid there is nothing to check. -/
theorem Block.checksumInv_of_none {p : CrcParams} {b : Block} (ha : b.absorbed = none) (hv : b.pktValid = false) :
    b.ChecksumInv p :=
  ⟨by simp [ha], by simp [hv]⟩

theorem Block.checksumInv_of_some {p : CrcParams} {b : Block} {bytes : List Byte} (ha : b.absorbed = some bytes)
    (hc : b.rxAcc = crcFold p p.init bytes) (hv : b.pktValid = false) : b.ChecksumInv p :=
  ⟨by simpa [ha] using hc, by simp [hv]⟩

/-- A step that absorbs a byte and takes it into the running CRC keeps the checksum invariants (R89, R118). -/
theorem Block.ChecksumInv.absorb {p : CrcParams} {b b' : Block} {bytes : List Byte} {x : Byte} (h : b.ChecksumInv p)
    (ha : b.absorbed = some bytes) (ha' : b'.absorbed = some (bytes ++ [x])) (hc : b'.rxAcc = crcStep p b.rxAcc x)
    (hv : b'.pktValid = false) : b'.ChecksumInv p :=
  Block.checksumInv_of_some ha' (by rw [hc, h.1 bytes ha, crcFold_concat]) hv

/-- The checksum invariants do not speak of the records on the two ports. -/
theorem Block.checksumInv_ports {p : CrcParams} {b : Block} {rp : List Response} {lp : List LogRecord} :
    Block.ChecksumInv p { b with respPort := rp, logPort := lp } ↔ b.ChecksumInv p := Iff.rfl

theorem Block.reset_checksumInv (p q : CrcParams) : (Block.reset p).ChecksumInv q :=
  Block.checksumInv_of_none (Block.absorbed_eq_none (.inl rfl)) rfl

/-- A READ_PACKET that ends without a packet leaves nothing to check. -/
theorem Block.finish_checksumInv {b : Block} {st : Status} (p : CrcParams) (hv : b.pktValid = false) :
    (b.finish st).ChecksumInv p :=
  Block.checksumInv_of_none (b.finish_absorbed st) hv

/-! ## One byte of the stream, state by state (R104 to R115) -/

section
variable {p : CrcParams} {b : Block}

theorem rxHunt_checksumInv (x : Byte) (h : b.Running .hunt) : (rxHunt p b x).ChecksumInv p := by
  by_cases hx : x = sync
  · subst hx
    exact Block.checksumInv_of_some (bytes := [sync]) rfl rfl h.pktValid
  · rw [rxHunt, if_neg hx]
    exact Block.checksumInv_of_none (Block.absorbed_eq_none (.inr rfl)) h.pktValid

theorem rxLenLo_checksumInv (x : Byte) (h : b.Running .lenLo) (hc : b.ChecksumInv p) :
    (rxLenLo p b x).ChecksumInv p :=
  hc.absorb (bytes := [sync]) (x := x) (by simp [Block.absorbed, h.state]) (by simp [Block.absorbed, rxLenLo]) rfl
    h.pktValid

theorem rxLenHi_checksumInv (x : Byte) (h : b.Running .lenHi) (hc : b.ChecksumInv p) :
    (rxLenHi p b x).ChecksumInv p := by
  by_cases hx : (half (byteLo b.lenReg) x).toNat < 7
  · rw [rxLenHi, if_pos hx]
    exact Block.finish_checksumInv p h.pktValid
  · rw [rxLenHi, if_neg hx]
    exact hc.absorb (bytes := [sync, byteLo b.lenReg]) (x := x) (by simp [Block.absorbed, h.state])
      (by simp [Block.absorbed]) rfl h.pktValid

theorem rxFunc_checksumInv (x : Byte) (h : b.Running .func) (hc : b.ChecksumInv p) : (rxFunc p b x).ChecksumInv p :=
  hc.absorb (bytes := [sync, byteLo b.lenReg, byteHi b.lenReg]) (x := x) (by simp [Block.absorbed, h.state])
    (by simp [Block.absorbed, rxFunc]) rfl h.pktValid

theorem rxAddr1_checksumInv (x : Byte) (h : b.Running .addr1) (hc : b.ChecksumInv p) :
    (rxAddr1 p b x).ChecksumInv p :=
  hc.absorb (bytes := [sync, byteLo b.lenReg, byteHi b.lenReg, b.funcReg]) (x := x)
    (by simp [Block.absorbed, h.state]) (by simp [Block.absorbed, rxAddr1]) rfl h.pktValid

theorem rxAddr2_storedBytes (x : Byte) :
    (rxAddr2 p b x).storedBytes = [sync, byteLo b.lenReg, byteHi b.lenReg, b.funcReg, b.a1Reg] ++ [x] := rfl

theorem rxAddr2_checksumInv (x : Byte) (h : b.Running .addr2) (hc : b.ChecksumInv p) :
    (rxAddr2 p b x).ChecksumInv p := by
  obtain ⟨ph, hph, hr⟩ := rxAddr2_running p x h
  exact hc.absorb (bytes := [sync, byteLo b.lenReg, byteHi b.lenReg, b.funcReg, b.a1Reg])
    (by simp [Block.absorbed, h.state])
    (by rw [hr.absorbed_storedBytes (hph.imp_right .inl), rxAddr2_storedBytes]) rfl hr.pktValid

theorem rxData_storedBytes (x : Byte) (h : b.Running .data) : (rxData p b x).storedBytes = b.storedBytes ++ [x] := by
  simp only [Block.storedBytes, rxData, h.payCnt_succ.1, Memory.slice_write_next h.payBuf, List.append_assoc]

theorem rxData_checksumInv (x : Byte) (h : b.Running .data) (hc : b.ChecksumInv p) : (rxData p b x).ChecksumInv p := by
  obtain ⟨ph, hph, hr⟩ := rxData_running p x h
  exact hc.absorb (h.absorbed_storedBytes (.inl rfl))
    (by rw [hr.absorbed_storedBytes (hph.imp_right .inl), rxData_storedBytes x h]) rfl hr.pktValid

/-- The checksum's low byte is not absorbed (R112). -/
theorem rxCrcLo_checksumInv (x : Byte) (h : b.Running .crcLo) (hc : b.ChecksumInv p) : (rxCrcLo b x).ChecksumInv p :=
  Block.checksumInv_of_some (bytes := b.storedBytes) ((rxCrcLo_running x h).absorbed_storedBytes (.inr (.inr rfl)))
    (hc.1 _ (h.absorbed_storedBytes (.inr (.inl rfl)))) h.pktValid

/-- In CRC_HI the computed checksum is that of the frame's covered bytes (R113). -/
theorem Block.Running.crcFinal_eq (h : b.Running .crcHi) (hc : b.ChecksumInv p) :
    crcFinal p b.rxAcc = crc16 p (frameHeader b.lenReg b.funcReg b.a1Reg b.a2Reg ++ b.payload) := by
  rw [← Block.storedBytes_eq (h.stored (.inr rfl)), crc16, hc.1 _ (h.absorbed_storedBytes (.inr (.inr rfl)))]

theorem rxCrcHi_checksumInv (x : Byte) (h : b.Running .crcHi) (hc : b.ChecksumInv p) :
    (rxCrcHi p b x).ChecksumInv p := by
  simp only [rxCrcHi]
  split
  · rename_i hmatch
    exact ⟨by simp, fun _ => ⟨h.length (by decide), hmatch, h.crcFinal_eq hc⟩⟩
  · exact Block.finish_checksumInv p h.pktValid

end

/-- A byte taken keeps the checksum invariants, in every state of the framer (R102). -/
theorem Block.Running.rxByte_checksumInv {ph : RxPhase} {p : CrcParams} {b : Block} (h : b.Running ph)
    (hc : b.ChecksumInv p) (x : Byte) : (rxByte p ph b x).ChecksumInv p := by
  cases ph with
  | idle => exact hc
  | hunt => exact rxHunt_checksumInv x h
  | lenLo => exact rxLenLo_checksumInv x h hc
  | lenHi => exact rxLenHi_checksumInv x h hc
  | func => exact rxFunc_checksumInv x h hc
  | addr1 => exact rxAddr1_checksumInv x h hc
  | addr2 => exact rxAddr2_checksumInv x h hc
  | data => exact rxData_checksumInv x h hc
  | crcLo => exact rxCrcLo_checksumInv x h hc
  | crcHi => exact rxCrcHi_checksumInv x h hc

/-- The block's step keeps the checksum invariants. -/
theorem blockTurn_checksumInv {s t : State} (hs : s.block.RegisterInv) (hc : s.block.ChecksumInv s.config.crc)
    (h : blockTurn s = .next t) : t.block.ChecksumInv s.config.crc := by
  rcases blockTurn_next h with ⟨-, rfl⟩ | ⟨-, hb, -, rfl⟩ |
    ⟨-, -, -, ph, hst, hph, ⟨-, -, rfl⟩ | ⟨-, -, rfl⟩ | ⟨x, rest, -, rfl⟩⟩ |
    ⟨-, -, ⟨-, rfl⟩ | ⟨c, rest, i, -, -, -, e | ⟨r, e⟩⟩⟩
  · exact Block.reset_checksumInv _ _
  · obtain ⟨ph, hr⟩ := hs.running_of_busy hb
    exact Block.finish_checksumInv _ hr.pktValid
  · exact hc
  · exact Block.finish_checksumInv _ (hs.running hst hph).pktValid
  · exact (hs.running hst hph).rxByte_checksumInv hc x
  · exact hc
  · exact e ▸ Block.checksumInv_of_none (Block.absorbed_eq_none (.inr rfl)) rfl
  · exact e ▸ hc

/-- Settles O54: the block's step keeps the invariants state by state, no step changes the parameters, and every other
agent leaves all but the records on the ports alone. -/
theorem stepKeepsChecksumInv : Obligations.StepKeepsChecksumInv := by
  intro s t hs hc h
  rw [parametersNeverChange s t h]
  obtain ⟨-, ⟨ts, hb⟩ | ⟨⟨-, -, rp, lp, e⟩, -⟩⟩ := step_cases h
  · exact blockTurn_checksumInv (s := { s with turns := ts }) hs hc hb
  · exact e ▸ Block.checksumInv_ports.2 hc

end Sys2Proof.Machine
end

section
/-!
SUPPORT. What the block's step leaves unchanged: the command port while a READ_PACKET runs, `pkt_valid` but for a
matching checksum, and the records already on the two output ports.
-/

namespace Sys2Proof.Machine

/-- Settles O10: only the last case of the block's step takes a command, and it needs an idle block. -/
theorem commandWaitsWhileBusy : Obligations.CommandWaitsWhileBusy := by
  intro s t hb h
  rcases blockTurn_next h with ⟨-, rfl⟩ | ⟨-, -, -, rfl⟩ |
    ⟨-, -, -, _, -, -, ⟨-, -, rfl⟩ | ⟨-, -, rfl⟩ | ⟨_, _, -, rfl⟩⟩ | ⟨-, hidle, -⟩
  case inr.inr.inr => exact absurd (hb.symm.trans hidle) nofun
  all_goals rfl

/-! ## `pkt_valid` -/

/-- No byte but the CRC high byte touches `pkt_valid`. -/
theorem rxByte_pktValid_of_ne {ph : RxPhase} (hph : ph ≠ .crcHi) (p : CrcParams) (b : Block) (x : Byte) :
    (rxByte p ph b x).pktValid = b.pktValid := by
  cases ph
  case crcHi => exact absurd rfl hph
  case hunt => simp only [rxByte, rxHunt]; split <;> rfl
  case lenHi => simp only [rxByte, rxLenHi]; split <;> rfl
  all_goals rfl

/-- The CRC high byte makes the packet valid only when the checksums match (R114, R115). -/
theorem rxCrcHi_of_pktValid {p : CrcParams} {b : Block} {x : Byte} (hv : b.pktValid = false)
    (h : (rxCrcHi p b x).pktValid = true) :
    crcFinal p b.rxAcc = half b.crcRxLo x ∧ (rxCrcHi p b x).lastResult = .packetOk := by
  by_cases hm : crcFinal p b.rxAcc = half b.crcRxLo x <;> simp [rxCrcHi, hm, hv] at h ⊢

/-- A step of the block after which `pkt_valid` has risen took the CRC high byte of a matching frame. -/
theorem blockTurn_sets_pktValid {s t : State} (h : blockTurn s = .next t) (hv : s.block.pktValid = false)
    (hv' : t.block.pktValid = true) :
    ∃ x rest, s.block.busy = true ∧ s.block.rxState = RxPhase.crcHi.code ∧ s.rxBytes = x :: rest ∧ t.rxBytes = rest ∧
      crcFinal s.config.crc s.block.rxAcc = half s.block.crcRxLo x ∧ t.block.lastResult = .packetOk := by
  have unchanged : t.block.pktValid ≠ s.block.pktValid := by simp [hv, hv']
  rcases blockTurn_next h with ⟨-, rfl⟩ | ⟨-, -, -, rfl⟩ |
    ⟨-, hb, -, ph, hst, -, ⟨-, -, rfl⟩ | ⟨-, -, rfl⟩ | ⟨x, rest, hx, rfl⟩⟩ |
    ⟨-, -, ⟨-, rfl⟩ | ⟨_, _, _, -, -, -, e | ⟨r, e⟩⟩⟩
  case inr.inr.inl.inr.inr =>
    by_cases hph : ph = .crcHi
    · subst hph
      obtain ⟨hm, hok⟩ := rxCrcHi_of_pktValid hv hv'
      exact ⟨x, rest, hb, hst, hx, rfl, hm, hok⟩
    · exact absurd (rxByte_pktValid_of_ne hph _ _ x) unchanged
  case inl => exact absurd hv' nofun
  case inr.inr.inr.inr.inl => rw [e] at hv'; exact absurd hv' nofun
  case inr.inr.inr.inr.inr => exact absurd (congrArg Block.pktValid e) unchanged
  all_goals exact absurd rfl unchanged

/-- Settles O56: no other agent touches `pkt_valid`, and the block raises it in CRC_HI alone. -/
theorem onlyMatchSetsPktValid : Obligations.OnlyMatchSetsPktValid := by
  intro s t h hv hv'
  obtain ⟨-, ⟨ts, hb⟩ | ⟨⟨-, -, rp, lp, e⟩, -⟩⟩ := step_cases h
  · exact blockTurn_sets_pktValid (s := { s with turns := ts }) hb hv hv'
  · exact absurd (hv.symm.trans ((congrArg Block.pktValid e).symm.trans hv')) nofun

/-! ## The response and the log port -/

/-- Every record on the two output ports stays in place, and at most one is added to each (R16, R18). -/
def Block.PortsGrow (b b' : Block) : Prop :=
  (b'.respPort = b.respPort ∨ ∃ r, b'.respPort = b.respPort ++ [r]) ∧
  (b'.logPort = b.logPort ∨ ∃ r, b'.logPort = b.logPort ++ [r])

theorem Block.PortsGrow.of_eq {b b' : Block} (hr : b'.respPort = b.respPort) (hl : b'.logPort = b.logPort) :
    b.PortsGrow b' := ⟨.inl hr, .inl hl⟩

theorem Block.respond_portsGrow (b : Block) (r : Response) : b.PortsGrow (b.respond r) := ⟨.inr ⟨r, rfl⟩, .inl rfl⟩

theorem Block.log_portsGrow (b : Block) (r : LogRecord) : b.PortsGrow (b.log r) := ⟨.inl rfl, .inr ⟨r, rfl⟩⟩

theorem Block.finish_portsGrow (b : Block) (st : Status) : b.PortsGrow (b.finish st) := ⟨.inr ⟨_, rfl⟩, .inl rfl⟩

theorem Block.log_finish_portsGrow (b : Block) (r : LogRecord) (st : Status) : b.PortsGrow ((b.log r).finish st) :=
  ⟨.inr ⟨_, rfl⟩, .inr ⟨r, rfl⟩⟩

/-- A byte taken drops no record, in every state of the framer (R102). -/
theorem rxByte_portsGrow (p : CrcParams) (ph : RxPhase) (b : Block) (x : Byte) : b.PortsGrow (rxByte p ph b x) := by
  cases ph
  case hunt =>
    simp only [rxByte, rxHunt]
    split
    · exact .of_eq rfl rfl
    · exact Block.log_portsGrow _ _
  case lenHi =>
    simp only [rxByte, rxLenHi]
    split
    · exact Block.log_finish_portsGrow _ _ _
    · exact .of_eq rfl rfl
  case crcHi =>
    simp only [rxByte, rxCrcHi]
    split
    · exact Block.finish_portsGrow _ _
    · exact Block.log_finish_portsGrow _ _ _
  all_goals exact .of_eq rfl rfl

/-- Settles O58: every move of the block but a reset ends the read, takes a byte or answers a command. -/
theorem portsKeepTheirRecords : Obligations.PortsKeepTheirRecords := by
  intro s t h hrst
  show s.block.PortsGrow t.block
  rcases blockTurn_next h with ⟨hr, -⟩ | ⟨-, -, -, rfl⟩ |
    ⟨-, -, -, ph, -, -, ⟨-, -, rfl⟩ | ⟨-, -, rfl⟩ | ⟨x, _, -, rfl⟩⟩ |
    ⟨-, -, ⟨-, rfl⟩ | ⟨_, _, _, -, -, -, e | ⟨r, e⟩⟩⟩
  · exact absurd (hrst.symm.trans hr) nofun
  · exact Block.finish_portsGrow _ _
  · exact .of_eq rfl rfl
  · exact Block.log_finish_portsGrow _ _ _
  · exact rxByte_portsGrow _ ph _ x
  · exact .of_eq rfl rfl
  · exact e ▸ .of_eq rfl rfl
  · exact e ▸ Block.respond_portsGrow _ r

end Sys2Proof.Machine
end

section
/-!
SUPPORT. Where a step starts and ends: the states it refuses to start from (R22, R40, R162), the command it takes (R16),
the state after power-on (R39), and the register view (R33, R34).
-/

namespace Sys2Proof

/-! ## Fields of a 32-bit register -/

/-- A field read at its own place is what was put there (R11). -/
theorem extractLsb'_field_same {w : Nat} (v : BitVec w) {k : Nat} (h : k + w ≤ 32) :
    (field v k).extractLsb' k w = v := by
  ext i hi
  simp [field, show k + i < 32 by omega, BitVec.getLsbD_eq_getElem hi]

/-- A field has no bit outside its own place (R11). -/
theorem extractLsb'_field_disjoint {w : Nat} (v : BitVec w) {k j n : Nat} (h : j + n ≤ k ∨ k + w ≤ j) :
    (field v k).extractLsb' j n = 0#n := by
  ext i hi
  rcases h with h | h
  · simp [field, show j + i < k by omega]
  · simp [field, BitVec.getLsbD_of_ge v (j + i - k) (by omega)]

end Sys2Proof

namespace Sys2Proof.Machine

/-! ## Model faults -/

theorem step_eq_fault {s : State} {f : Fault} (h : s.block.modelFault = some f) : step s = .fault f := by
  simp only [step, stepMachine, h]

theorem Block.modelFault_of_unnamed {b : Block} (h : 10 ≤ b.rxState.toNat) :
    b.modelFault = some .rxStateUnreachable := if_pos h

theorem Block.modelFault_of_incoherent {b : Block} (h : b.rxState.toNat ≤ 9) (hc : ¬ b.Coherent) :
    b.modelFault = some .invariantBroken := by
  rw [Block.modelFault, if_neg (by omega), if_neg hc]

/-- Settles O11: each listed condition contradicts one invariant of R40. -/
theorem unreachableStatesFault : Obligations.UnreachableStatesFault := by
  intro s
  refine ⟨fun h => step_eq_fault (Block.modelFault_of_unnamed h),
    fun h9 hbad => step_eq_fault (Block.modelFault_of_incoherent h9 ?_)⟩
  rintro ⟨hbusy, hop, hlen, hdata, hcrc, hvalid⟩
  rcases hbad with ⟨hb, h0⟩ | ⟨hb, h0⟩ | ⟨hb, h3⟩ | ⟨h4, h7⟩ | ⟨hs, hcnt⟩ | ⟨hs, hcnt⟩ | ⟨hv, h0⟩
  · exact hbusy.1 hb h0
  · exact absurd (hb.symm.trans (hbusy.2 h0)) nofun
  · exact h3 (hop hb)
  · exact absurd (hlen ⟨h4, h9⟩) (by omega)
  · exact absurd (hdata hs) (not_lt.2 hcnt)
  · exact hcnt (hcrc hs)
  · exact h0 (hvalid hv)

/-! ## Taking a command -/

/-- An idle block with a command waiting has a step. -/
theorem State.blockEnabled_of_command {s : State} {c : Command} {rest : List Command} (hb : s.block.busy = false)
    (hp : s.cmdPort = c :: rest) : s.blockEnabled = true := by
  simp [State.blockEnabled, hb, hp]

/-- An idle block that is not reset runs the command at the head of the port, and a raised `cancel` is used up
(R16, R160). -/
theorem blockTurn_of_command {s : State} {c : Command} {rest : List Command} {i : Instr} (hr : s.rst = false)
    (hb : s.block.busy = false) (hp : s.cmdPort = c :: rest) (hd : decodeCommand c = .ok i) :
    blockTurn s = exec i { s with cmdPort := rest, cancel := false } := by
  have hlow : { s.lowerInputs with cmdPort := rest } = { s with cmdPort := rest, cancel := false } := by
    simp [State.lowerInputs, hr]
  rw [← hlow]
  simp [blockTurn, decodeSideband, commandTurn, hr, hb, hp, hd]

/-- Settles O8: with no turn listed and a command waiting the default move is the block's. -/
theorem stepRunsDecodedCommand : Obligations.StepRunsDecodedCommand := by
  intro s c rest i ht hr hb hm hp hd
  rw [step_eq_defaultTurn hm ht, defaultTurn, if_pos (State.blockEnabled_of_command hb hp),
    blockTurn_of_command hr hb hp hd]

/-! ## Power-on -/

/-- Settles O41: the block after power-on is `Block.reset`, and an empty buffer reads 0 everywhere. -/
theorem resetValues : Obligations.ResetValues := fun _ =>
  ⟨rfl, rfl, rfl, rfl, rfl, rfl, rfl, fun _ => rfl, rfl, rfl, rfl, rfl, rfl, rfl, rfl, rfl, rfl, rfl⟩

/-- Settles O52: the block after power-on is idle, no frame has begun and no packet is valid. -/
theorem resetMeetsInvariants : Obligations.ResetMeetsInvariants := by
  have hreset (c : Config) : (State.resetWith c).block.RegisterInv ∧ (State.resetWith c).block.ChecksumInv c.crc :=
    ⟨(Block.reset_idle c.crc).registerInv, Block.reset_checksumInv c.crc c.crc⟩
  exact ⟨hreset, hreset Config.reference⟩

/-! ## The register view -/

theorem Status.code_le_five (st : Status) : st.code.toNat ≤ 5 := by cases st <;> decide

/-- Settles O42: each register is an `or` of fields at disjoint places, so at each place one field is read. -/
theorem registerViewLayout : Obligations.RegisterViewLayout := by
  refine ⟨⟨rfl, rfl, rfl, rfl, rfl, rfl, Status.code_le_five⟩, fun p b i => ⟨?_, ?_, ?_, ?_, ?_, ?_, ?_, ?_⟩⟩
  case refine_8 =>
    intro n h7 h15
    interval_cases n <;> rfl
  all_goals
    simp [Block.view, Block.statusWord, BitVec.extractLsb'_or, extractLsb'_field_same, extractLsb'_field_disjoint]

theorem viewRead_eq_next {n i : Nat} (s : State) (hn : n ≤ 15) (hi : n = 6 → i ≤ 65527) :
    viewRead n i s =
      .next (s.setHost { s.host with seen := s.host.seen ++ [.view n i (s.block.view s.config.crc n i)] }) := by
  rw [viewRead, if_neg (by omega), if_neg (by unfold paySize; omega)]

theorem viewRead_eq_viewNumber {n : Nat} (i : Nat) (s : State) (hn : 15 < n) :
    viewRead n i s = .refused .viewNumber := if_pos hn

theorem viewRead_eq_viewIndex {i : Nat} (s : State) (hi : 65527 < i) : viewRead 6 i s = .refused .viewIndex := by
  rw [viewRead, if_neg (by omega), if_pos ⟨rfl, hi⟩]

/-- Settles O43: a listed read is `viewRead`, whose three answers are the three clauses; a listed write is refused. -/
theorem viewReadHasNoSideEffect : Obligations.ViewReadHasNoSideEffect := by
  intro s n i v rest hm
  have listed {turn : Turn} (ht : s.turns = turn :: rest) := step_eq_agentTurn hm ht
  refine ⟨fun ht hn hi => ?_, fun ht hn => ?_, fun ht hn hi => ?_, listed⟩
  · exact (listed ht).trans (viewRead_eq_next _ hn hi)
  · exact (listed ht).trans (viewRead_eq_viewNumber i _ hn)
  · subst hn
    exact (listed ht).trans (viewRead_eq_viewIndex _ hi)

end Sys2Proof.Machine
end

section
/-!
SUPPORT. The RX stream across a step (R42, R43, R54), what the block's step leaves alone outside the block (R45, R97),
and a READ_PACKET that holds on an empty stream (R46).
-/

namespace Sys2Proof.Machine

/-! ## The block's step outside the block -/

/-- The block's step writes neither the list of turns nor the stream's end mark (R43, R45). -/
theorem blockTurn_turns_rxEof {s t : State} (h : blockTurn s = .next t) : t.turns = s.turns ∧ t.rxEof = s.rxEof := by
  rcases blockTurn_next h with ⟨-, rfl⟩ | ⟨-, -, -, rfl⟩ |
    ⟨-, -, -, _, -, -, ⟨-, -, rfl⟩ | ⟨-, -, rfl⟩ | ⟨_, _, -, rfl⟩⟩ | ⟨-, -, ⟨-, rfl⟩ | ⟨_, _, _, -, -, e, -⟩⟩
  case inr.inr.inr.inr => rw [e]; exact ⟨rfl, rfl⟩
  all_goals exact ⟨rfl, rfl⟩

/-- The block's step leaves the unread bytes alone, or a READ_PACKET runs and takes the first one (R43, R54). -/
theorem blockTurn_rxBytes {s t : State} (h : blockTurn s = .next t) :
    t.rxBytes = s.rxBytes ∨ ∃ x, s.rxBytes = x :: t.rxBytes ∧ s.block.busy = true := by
  rcases blockTurn_next h with ⟨-, rfl⟩ | ⟨-, -, -, rfl⟩ |
    ⟨-, hb, -, _, -, -, ⟨-, -, rfl⟩ | ⟨-, -, rfl⟩ | ⟨x, _, hx, rfl⟩⟩ | ⟨-, -, ⟨-, rfl⟩ | ⟨_, _, _, -, -, e, -⟩⟩
  case inr.inr.inl.inr.inr => exact .inr ⟨x, hx, hb⟩
  case inr.inr.inr.inr => rw [e]; exact .inl rfl
  all_goals exact .inl rfl

/-- Settles O59: the host's side, the parameters, the turns and the end mark each stay. -/
theorem blockLeavesHostAlone : Obligations.BlockLeavesHostAlone := fun _ _ h =>
  ⟨blockTurn_host h, blockTurn_config h, blockTurn_turns_rxEof h⟩

/-! ## The stream across a step -/

/-- Settles O57: the block at most takes the first byte and keeps the end mark; every other agent's move at most appends
a byte to a stream that has not ended. -/
theorem streamIsReadInOrder : Obligations.StreamIsReadInOrder := by
  intro s t h
  obtain ⟨-, ⟨ts, hb⟩ | ⟨-, hbytes, hend⟩⟩ := step_cases h
  · obtain ⟨-, hend⟩ := blockTurn_turns_rxEof hb
    exact ⟨(blockTurn_rxBytes hb).imp_right .inl, hend.trans⟩
  · exact ⟨hbytes.imp_right .inr, hend⟩

/-! ## A READ_PACKET that holds -/

/-- With no input raised, sampling the inputs changes nothing. -/
theorem State.lowerInputs_eq_self {s : State} (hr : s.rst = false) (hc : s.cancel = false) : s.lowerInputs = s := by
  cases s
  cases hr
  cases hc
  rfl

/-- With no input raised the step of a running READ_PACKET is its item step (R101). -/
theorem State.Reads.blockTurn_eq_rxItem {s : State} {ph : RxPhase} (h : s.Reads ph) : blockTurn s = rxItem s := by
  obtain ⟨hr, hc, hb, -⟩ := h
  simp [blockTurn, decodeSideband, hr, hc, hb, State.lowerInputs_eq_self]

/-- In every state but IDLE, an item step that finds nothing changes nothing (R46, R101). -/
theorem rxItem_of_empty {s : State} {ph : RxPhase} (hs : s.block.rxState = ph.code) (hph : ph ≠ .idle)
    (hx : s.rxBytes = []) (he : s.rxEof = false) : rxItem s = .next s := by
  cases ph
  case idle => exact absurd rfl hph
  all_goals simp [rxItem, State.streamRead, hs, hx, he]

/-- A running READ_PACKET with no input raised and nothing in the stream gives the block no step (R46). -/
theorem State.Reads.blockEnabled_of_empty {s : State} {ph : RxPhase} (h : s.Reads ph) (hx : s.rxBytes = [])
    (he : s.rxEof = false) : s.blockEnabled = false := by
  obtain ⟨hr, hc, hb, -⟩ := h
  simp [State.blockEnabled, hr, hc, hb, hx, he]

theorem programTurn_of_stopped {s : State} (hp : s.host.point = .stopped) : programTurn s = .next s := by
  simp only [programTurn, hp]

/-- Settles O29: the item step finds nothing; the default move is then the host program's, which has stopped. -/
theorem emptyStreamHolds : Obligations.EmptyStreamHolds := by
  intro s ph hreads hph hx he
  have ⟨_, _, _, hs⟩ := hreads
  refine ⟨hreads.blockTurn_eq_rxItem.trans (rxItem_of_empty hs hph hx he), fun hm ht hp => ?_⟩
  have disabled := hreads.blockEnabled_of_empty hx he
  rw [step_eq_defaultTurn hm ht, defaultTurn, if_neg (by simp [disabled]), programTurn_of_stopped hp]

end Sys2Proof.Machine
end

section
/-!
SUPPORT. The decoder and the encoder said once: what a command record stands for (R67 to R70), the row of a key and
payload (R78), and the bytes of a command record. Decode and encode are then inverse on each.
-/

namespace Sys2Proof

/-! ## Command records -/

/-- The decoder on command records in full: nothing in bits [7:4], one of the four opcodes, its operands, and for the
opcodes other than ENCODE nothing in bits [31:8] (R67 to R70). -/
theorem decodeCommand_eq_ok_iff {c : Command} {i : Instr} :
    decodeCommand c = .ok i ↔
      c.word.extractLsb' 4 4 = 0 ∧
        ((opField c.word = 1 ∧ c.word.extractLsb' 8 24 = 0 ∧ c.data.length ≤ maxCount ∧ i = .crc16 c.data) ∨
         (opField c.word = 2 ∧ c.data.length ≤ maxCount ∧
            i = .encode (c.word.extractLsb' 8 8) (c.word.extractLsb' 16 8) (c.word.extractLsb' 24 8) c.data) ∨
         (opField c.word = 3 ∧ c.word.extractLsb' 8 24 = 0 ∧ i = .readPacket) ∨
         (opField c.word = 4 ∧ c.word.extractLsb' 8 24 = 0 ∧ i = .decode)) := by
  unfold decodeCommand
  split_ifs <;> simp_all [@eq_comm _ i]

theorem decode_command_eq_ok_iff {c : Command} {i : Instr} :
    decode (.command c) = .ok i ↔ decodeCommand c = .ok i := by
  rw [decode]
  cases decodeCommand c <;> simp [Except.mapError]

/-- A byte of the operand bits [31:8] is a byte of the word. -/
theorem extractLsb'_operandBits (w : Word) {k : Nat} (h : k + 8 ≤ 24) :
    (w.extractLsb' 8 24).extractLsb' k 8 = w.extractLsb' (8 + k) 8 := by
  ext i hi
  simp [show k + i < 24 by omega, Nat.add_assoc]

/-- A command word with nothing in bits [7:4] and [31:8] is its opcode (R67). -/
theorem commandWord_op_of_operands {w : Word} (hr : w.extractLsb' 4 4 = 0) (ho : w.extractLsb' 8 24 = 0) :
    commandWord (opField w) 0 0 0 = w := by
  have operand {k : Nat} (hk : k + 8 ≤ 24) : w.extractLsb' (8 + k) 8 = 0 := by
    rw [← extractLsb'_operandBits w hk, ho]
    simp
  have fields := commandWord_fields hr
  rwa [operand (k := 0) (by decide), operand (k := 8) (by decide), operand (k := 16) (by decide)] at fields

/-- Settles O2: row by row, the word is its opcode and operands put back together, and the data is the row's. -/
theorem commandRecordsHaveOneMeaning : Obligations.CommandRecordsHaveOneMeaning := by
  rintro ⟨w, data⟩ i hd hdata
  obtain ⟨hr, ⟨hop, ho, -, rfl⟩ | ⟨hop, -, rfl⟩ | ⟨hop, ho, rfl⟩ | ⟨hop, ho, rfl⟩⟩ := decodeCommand_eq_ok_iff.1 hd
  · rw [encode, ← hop, commandWord_op_of_operands hr ho]
  · rw [encode, ← hop, commandWord_fields hr]
  · obtain rfl : data = [] := by simpa [hasCount, hop] using hdata
    rw [encode, ← hop, commandWord_op_of_operands hr ho]
  · obtain rfl : data = [] := by simpa [hasCount, hop] using hdata
    rw [encode, ← hop, commandWord_op_of_operands hr ho]

/-! ## Keys and payloads -/

/-- A key and payload of a legal length decode to their row (R78). -/
theorem decode_packet {p : List Byte} (k : BitVec 24) (h : p.length ≤ maxPayload) :
    decode (.packet k p) = .ok (decodeRow (k.extractLsb' 16 8) (k.extractLsb' 8 8) (k.extractLsb' 0 8) p) :=
  if_pos h

theorem decode_packetKey {f a1 a2 : Byte} {p : List Byte} (h : p.length ≤ maxPayload) :
    decode (.packet (packetKey f a1 a2) p) = .ok (decodeRow f a1 a2 p) := by
  simp [decode_packet _ h]

theorem not_mem_occupancyPayloads {p : List Byte} :
    p ∉ occupancyPayloads ↔ p ≠ [0x00, 0xFF, 0xFF] ∧ p ≠ [0x01, 0x00, 0xFF] ∧ p ≠ [0x01, 0x01, 0x01] := by
  simp [occupancyPayloads]

theorem decodeEnvironment_of_not_mem {p : List Byte} (h : p ∉ occupancyPayloads) :
    decodeEnvironment p = .envOther p := by
  obtain ⟨h1, h2, h3⟩ := not_mem_occupancyPayloads.1 h
  rw [decodeEnvironment, if_neg h1, if_neg h2, if_neg h3]

theorem decodeBody_of_length_ne {p : List Byte} (h : p.length ≠ 4) : decodeBody p = .bodyOtherLen p := by
  unfold decodeBody
  split
  · exact absurd rfl h
  · rfl

theorem decodeRow_environment (p : List Byte) : decodeRow 4 3 5 p = decodeEnvironment p := rfl

theorem decodeRow_body (p : List Byte) : decodeRow 4 3 6 p = decodeBody p := rfl

theorem decodeRow_reportOther {a1 a2 : Byte} (p : List Byte) (h5 : ¬ (a1 = 3 ∧ a2 = 5)) (h6 : ¬ (a1 = 3 ∧ a2 = 6)) :
    decodeRow 4 a1 a2 p = .reportOther a1 a2 p := by
  rw [decodeRow, if_pos rfl, if_neg h5, if_neg h6]

theorem decodeRow_nonReport {f : Byte} (a1 a2 : Byte) (p : List Byte) (h2 : f ≠ 2) (h3 : f ≠ 3) (h4 : f ≠ 4) :
    decodeRow f a1 a2 p = .nonReport f a1 a2 p := by
  rw [decodeRow, if_neg h4, if_neg h2, if_neg h3]

/-- The rows a key and payload can have, in the order of the table's conditions (R78). -/
theorem decodeRow_cases (f a1 a2 : Byte) (p : List Byte) :
    (f = 4 ∧ a1 = 3 ∧ a2 = 5 ∧ decodeRow f a1 a2 p = decodeEnvironment p) ∨
    (f = 4 ∧ a1 = 3 ∧ a2 = 6 ∧ decodeRow f a1 a2 p = decodeBody p) ∨
    (f = 4 ∧ ¬ (a1 = 3 ∧ a2 = 5) ∧ ¬ (a1 = 3 ∧ a2 = 6) ∧ decodeRow f a1 a2 p = .reportOther a1 a2 p) ∨
    (f = 2 ∧ decodeRow f a1 a2 p = .setParam a1 a2 p) ∨
    (f = 3 ∧ decodeRow f a1 a2 p = .setParamAck a1 a2 p) ∨
    (f ≠ 2 ∧ f ≠ 3 ∧ f ≠ 4 ∧ decodeRow f a1 a2 p = .nonReport f a1 a2 p) := by
  unfold decodeRow
  split_ifs <;> simp_all

/-- The rows a payload at (4, 3, 5) can have (R128 to R131). -/
theorem decodeEnvironment_cases (p : List Byte) :
    (p = [0x00, 0xFF, 0xFF] ∧ decodeEnvironment p = .envUnoccupied) ∨
    (p = [0x01, 0x00, 0xFF] ∧ decodeEnvironment p = .envOccupiedStatic) ∨
    (p = [0x01, 0x01, 0x01] ∧ decodeEnvironment p = .envOccupiedMoving) ∨
    (p ∉ occupancyPayloads ∧ decodeEnvironment p = .envOther p) := by
  unfold decodeEnvironment
  split_ifs <;> simp_all [occupancyPayloads]

/-- The rows a payload at (4, 3, 6) can have (R132, R133). -/
theorem decodeBody_cases (p : List Byte) :
    (∃ p0 p1 p2 p3, p = [p0, p1, p2, p3] ∧ decodeBody p = .bodyData p0 p1 p2 p3) ∨
    (p.length ≠ 4 ∧ decodeBody p = .bodyOtherLen p) := by
  by_cases h : p.length = 4
  · obtain ⟨p0, p1, p2, p3, rfl⟩ := List.length_eq_four.1 h
    exact .inl ⟨p0, p1, p2, p3, rfl, rfl⟩
  · exact .inr ⟨h, decodeBody_of_length_ne h⟩

/-- The row of a key and payload keeps both (R78). -/
theorem encode_decodeRow (f a1 a2 : Byte) (p : List Byte) :
    encode (decodeRow f a1 a2 p) = .packet (packetKey f a1 a2) p := by
  rcases decodeRow_cases f a1 a2 p with ⟨rfl, rfl, rfl, e⟩ | ⟨rfl, rfl, rfl, e⟩ | ⟨rfl, -, -, e⟩ | ⟨rfl, e⟩ |
    ⟨rfl, e⟩ | ⟨-, -, -, e⟩ <;> rw [e]
  case inl =>
    rcases decodeEnvironment_cases p with ⟨rfl, e⟩ | ⟨rfl, e⟩ | ⟨rfl, e⟩ | ⟨-, e⟩ <;> rw [e] <;> rfl
  case inr.inl =>
    rcases decodeBody_cases p with ⟨p0, p1, p2, p3, rfl, e⟩ | ⟨-, e⟩ <;> rw [e] <;> rfl
  all_goals rfl

/-- The row of a key and payload holds the conditions that keep it apart from the other rows (R78). -/
theorem decodeRow_wellFormed (f a1 a2 : Byte) {p : List Byte} (h : p.length ≤ maxPayload) :
    (decodeRow f a1 a2 p).WellFormed = true := by
  rcases decodeRow_cases f a1 a2 p with ⟨-, -, -, e⟩ | ⟨-, -, -, e⟩ | ⟨-, h5, h6, e⟩ | ⟨-, e⟩ | ⟨-, e⟩ |
    ⟨h2, h3, h4, e⟩ <;> rw [e]
  · rcases decodeEnvironment_cases p with ⟨-, e⟩ | ⟨-, e⟩ | ⟨-, e⟩ | ⟨hp, e⟩ <;> rw [e]
    case inr.inr.inr => exact decide_eq_true ⟨h, hp⟩
    all_goals rfl
  · rcases decodeBody_cases p with ⟨p0, p1, p2, p3, -, e⟩ | ⟨hp, e⟩ <;> rw [e]
    · rfl
    · exact decide_eq_true ⟨h, hp⟩
  · exact decide_eq_true ⟨h, h5, h6⟩
  · exact decide_eq_true h
  · exact decide_eq_true h
  · exact decide_eq_true ⟨h, h2, h3, h4⟩

/-! ## Every instruction -/

/-- Settles O1: a command row is its fields read back from the word, a packet row is the row of its key and payload. -/
theorem decodeEncodeEveryInstr : Obligations.DecodeEncodeEveryInstr := by
  intro i hwf
  cases i with
  | crc16 data =>
    exact decode_command_eq_ok_iff.2 (decodeCommand_eq_ok_iff.2 (by simpa [Instr.WellFormed] using hwf))
  | encode f a1 a2 data =>
    have hlen : data.length ≤ maxCount := (of_decide_eq_true hwf).trans (by decide)
    exact decode_command_eq_ok_iff.2 (decodeCommand_eq_ok_iff.2 (by simpa using hlen))
  | readPacket | decode => exact decode_command_eq_ok_iff.2 (decodeCommand_eq_ok_iff.2 (by simp))
  | cancel | rst => rfl
  | envUnoccupied | envOccupiedStatic | envOccupiedMoving | bodyData => exact decode_packetKey (by simp [maxPayload])
  | envOther p =>
    obtain ⟨hlen, hp⟩ := of_decide_eq_true hwf
    rw [encode, decode_packetKey hlen, decodeRow_environment, decodeEnvironment_of_not_mem hp]
  | bodyOtherLen p =>
    obtain ⟨hlen, hp⟩ := of_decide_eq_true hwf
    rw [encode, decode_packetKey hlen, decodeRow_body, decodeBody_of_length_ne hp]
  | reportOther a1 a2 p =>
    obtain ⟨hlen, h5, h6⟩ := of_decide_eq_true hwf
    rw [encode, decode_packetKey hlen, decodeRow_reportOther p h5 h6]
  | setParam a1 a2 p | setParamAck a1 a2 p => exact decode_packetKey (of_decide_eq_true hwf)
  | nonReport f a1 a2 p =>
    obtain ⟨hlen, h2, h3, h4⟩ := of_decide_eq_true hwf
    rw [encode, decode_packetKey hlen, decodeRow_nonReport a1 a2 p h2 h3 h4]

/-- Settles O3: the row is `decodeRow`'s, and by O1 any other with this encoding is what the encoding decodes to. -/
theorem packetsHaveExactlyOneRow : Obligations.PacketsHaveExactlyOneRow := by
  intro k p hp
  have hdec := decode_packet k hp
  refine ⟨_, ⟨hdec, decodeRow_wellFormed _ _ _ hp, by rw [encode_decodeRow, packetKey_fields]⟩, fun j hj hjk => ?_⟩
  have hj' := decodeEncodeEveryInstr j hj
  rw [hjk, hdec] at hj'
  exact (Except.ok.inj hj').symm

/-! ## Command records sent as bytes -/

/-- A COUNT of 16 bits sent low byte first is read back (R70). -/
theorem half_count {n : Nat} (h : n ≤ maxCount) :
    (half (byteLo (BitVec.ofNat 16 n)) (byteHi (BitVec.ofNat 16 n))).toNat = n := by
  rw [half_byteLo_byteHi, BitVec.toNat_ofNat, Nat.mod_eq_of_lt (h.trans_lt (by decide))]

/-- A word whose opcode has no operands is read back from its four bytes (R67, assumption 2). -/
theorem takeCommand_of_hasCount_false {w : Word} (rest : List Byte) (h : hasCount w = false) :
    takeCommand (wordBytes w ++ rest) = some (⟨w, []⟩, rest) := by
  simp [takeCommand, wordBytes, field_wordBytes, h]

/-- After a word whose opcode has operands, COUNT and as many data bytes are read (R67, R70, assumption 2). -/
theorem takeCommand_of_hasCount {w : Word} {c0 c1 : Byte} {data : List Byte} (rest : List Byte) (h : hasCount w = true)
    (hn : (half c0 c1).toNat = data.length) :
    takeCommand (wordBytes w ++ [c0, c1] ++ data ++ rest) = some (⟨w, data⟩, rest) := by
  simp [takeCommand, wordBytes, field_wordBytes, h, hn]

/-- Settles O5: the word is its four bytes put back together, and COUNT is the data's length. -/
theorem commandBytesRoundTrip : Obligations.CommandBytesRoundTrip := by
  rintro ⟨w, data⟩ rest hlen hdata
  cases h : hasCount w with
  | true =>
    rw [commandBytes, if_pos h]
    exact takeCommand_of_hasCount rest h (half_count hlen)
  | false =>
    obtain rfl : data = [] := by simpa [h] using hdata
    rw [commandBytes, if_neg (by simp [h])]
    exact takeCommand_of_hasCount_false rest h

/-- Settles O6: each is a fixed word, key or input that the decoder evaluates. -/
theorem specWordsDecode : Obligations.SpecWordsDecode := by
  unfold Obligations.SpecWordsDecode
  decide

end Sys2Proof
end

section
/-!
SUPPORT. What the encodings mean to the block: the command words it refuses (R69), the row DECODE runs (R78, R126, R127),
and the response word (R71).
-/

namespace Sys2Proof.Machine

/-! ## Refused command words -/

/-- The command words of R69: a reserved opcode, something in bits [7:4], or operand bits of an opcode other than
ENCODE. -/
def ReservedWord (w : Word) : Prop :=
  (opField w = 0 ∨ 5 ≤ (opField w).toNat) ∨ w.extractLsb' 4 4 ≠ 0 ∨ (w.extractLsb' 8 24 ≠ 0 ∧ opField w ≠ 2)

/-- The opcodes are 1 to 4 (R68). -/
theorem not_reservedOpcode_iff (op : BitVec 4) : ¬ (op = 0 ∨ 5 ≤ op.toNat) ↔ op = 1 ∨ op = 2 ∨ op = 3 ∨ op = 4 := by
  revert op
  decide

/-- The other command words: CRC16, READ_PACKET and DECODE with no operand bits, and ENCODE (R67 to R69). -/
theorem not_reservedWord_iff {w : Word} :
    ¬ ReservedWord w ↔
      w.extractLsb' 4 4 = 0 ∧
        ((opField w = 1 ∧ w.extractLsb' 8 24 = 0) ∨ opField w = 2 ∨ (opField w = 3 ∧ w.extractLsb' 8 24 = 0) ∨
          (opField w = 4 ∧ w.extractLsb' 8 24 = 0)) := by
  rw [ReservedWord, not_or, not_reservedOpcode_iff]
  generalize opField w = op
  constructor
  · rintro ⟨rfl | rfl | rfl | rfl, h⟩ <;> simpa using h
  · rintro ⟨hr, ⟨rfl, ho⟩ | rfl | ⟨rfl, ho⟩ | ⟨rfl, ho⟩⟩ <;> simp [*]

/-- With data that COUNT can state, the decoder rejects the reserved words and no other (R69). -/
theorem decodeCommand_eq_error_iff {c : Command} (h : c.data.length ≤ maxCount) :
    (∃ e, decodeCommand c = .error e) ↔ ReservedWord c.word := by
  have hok : (∃ e, decodeCommand c = .error e) ↔ ¬ ∃ i, decodeCommand c = .ok i := by
    cases decodeCommand c <;> simp
  rw [hok, not_iff_comm, not_reservedWord_iff]
  simp [decodeCommand_eq_ok_iff, exists_or, h]

/-- An idle block that is not reset refuses a command the decoder rejects (R16, R69). -/
theorem blockTurn_of_rejected {s : State} {c : Command} {rest : List Command} {e : CommandError} (hr : s.rst = false)
    (hb : s.block.busy = false) (hp : s.cmdPort = c :: rest) (hd : decodeCommand c = .error e) :
    blockTurn s = .refused (.commandRefused e) := by
  simp [blockTurn, decodeSideband, commandTurn, hr, hb, hp, hd]

/-- Settles O4: the reserved words are those the decoder rejects, and taking a rejected command is a refusal. -/
theorem reservedCommandWordsRefused : Obligations.ReservedCommandWordsRefused := by
  intro c hlen
  have rejected := decodeCommand_eq_error_iff hlen
  refine ⟨rejected, fun s rest ⟨ht, hr, _, hb, hm⟩ hp hres => ?_⟩
  obtain ⟨e, he⟩ := rejected.2 hres
  refine ⟨e, ?_⟩
  rw [step_eq_defaultTurn hm ht, defaultTurn, if_pos (State.blockEnabled_of_command hb hp),
    blockTurn_of_rejected hr hb hp he]

/-! ## The row of a validated packet -/

/-- The answer of R127 for a function, addresses and payload. -/
def State.answerPacket (s : State) (f a1 a2 : Byte) (p : List Byte) : State :=
  s.answerEvent (decodeEvent f a1 a2 p).1 (decodeEvent f a1 a2 p).2

theorem execDecode_of_pktValid {s : State} (h : s.block.pktValid = true) :
    execDecode s = .next (s.answerPacket s.block.funcReg s.block.a1Reg s.block.a2Reg s.block.payload) :=
  if_pos h

theorem ProgramPoint.ne_of_not_handshakes {pt : ProgramPoint} (h : pt.handshakes = false) :
    (∀ r, pt ≠ .handshakeSend r) ∧ ∀ r, pt ≠ .handshakeWait r := by
  constructor <;> rintro r rfl <;> cases h

/-- SET_PARAM anywhere but at the handshake's `send` point is a packet with no event (R134, assumption 13). -/
theorem execSetParam_of_ne {s : State} (a1 a2 : Byte) (p : List Byte) (h : ∀ r, s.host.point ≠ .handshakeSend r) :
    execSetParam a1 a2 p s = .next (s.answerEvent .none 0) := by
  unfold execSetParam
  split
  · rename_i r hp
    exact absurd hp (h r)
  · rfl

/-- SET_PARAM_ACK anywhere but at the handshake's `wait` point is a packet with no event (R134, assumption 13). -/
theorem execSetParamAck_of_ne {s : State} (a1 a2 : Byte) (p : List Byte) (h : ∀ r, s.host.point ≠ .handshakeWait r) :
    execSetParamAck a1 a2 p s = .next (s.answerEvent .none 0) := by
  unfold execSetParamAck
  split
  · rename_i r hp
    exact absurd hp (h r)
  · rfl

theorem decodeEvent_of_ne {f : Byte} (a1 a2 : Byte) (p : List Byte) (h : f ≠ 4) : decodeEvent f a1 a2 p = (.none, 0) :=
  if_pos h

theorem decodeEvent_environment_of_not_mem {p : List Byte} (h : p ∉ occupancyPayloads) :
    decodeEvent 4 3 5 p = (.none, 0) := by
  obtain ⟨h1, h2, h3⟩ := not_mem_occupancyPayloads.1 h
  rw [decodeEvent.eq_def, if_neg (by decide), if_pos (by decide), if_neg h1, if_neg h2, if_neg h3]

theorem decodeEvent_body_of_length_ne {p : List Byte} (h : p.length ≠ 4) : decodeEvent 4 3 6 p = (.none, 0) := by
  rw [decodeEvent.eq_def, if_neg (by decide), if_neg (by decide), if_pos (by decide)]
  split
  · exact absurd rfl h
  · rfl

theorem decodeEvent_reportOther {a1 a2 : Byte} (p : List Byte) (h5 : ¬ (a1 = 3 ∧ a2 = 5)) (h6 : ¬ (a1 = 3 ∧ a2 = 6)) :
    decodeEvent 4 a1 a2 p = (.none, 0) := by
  rw [decodeEvent.eq_def, if_neg (by decide), if_neg h5, if_neg h6]

/-- The table's row and the decision table of R127 give the same answer (R78). -/
theorem exec_decodeRow {s : State} (f a1 a2 : Byte) (p : List Byte) (h : s.host.point.handshakes = false) :
    exec (decodeRow f a1 a2 p) s = .next (s.answerPacket f a1 a2 p) := by
  obtain ⟨hsend, hwait⟩ := ProgramPoint.ne_of_not_handshakes h
  unfold State.answerPacket
  rcases decodeRow_cases f a1 a2 p with ⟨rfl, rfl, rfl, e⟩ | ⟨rfl, rfl, rfl, e⟩ | ⟨rfl, h5, h6, e⟩ | ⟨rfl, e⟩ |
    ⟨rfl, e⟩ | ⟨-, -, h4, e⟩ <;> rw [e]
  · rcases decodeEnvironment_cases p with ⟨rfl, e⟩ | ⟨rfl, e⟩ | ⟨rfl, e⟩ | ⟨hp, e⟩ <;> rw [e]
    case inr.inr.inr => rw [decodeEvent_environment_of_not_mem hp]; rfl
    all_goals rfl
  · rcases decodeBody_cases p with ⟨p0, p1, p2, p3, rfl, e⟩ | ⟨hp, e⟩ <;> rw [e]
    · rfl
    · rw [decodeEvent_body_of_length_ne hp]; rfl
  · rw [decodeEvent_reportOther p h5 h6]; rfl
  · exact execSetParam_of_ne a1 a2 p hsend
  · exact execSetParamAck_of_ne a1 a2 p hwait
  · rw [decodeEvent_of_ne a1 a2 p h4]; rfl

/-- Settles O38: both are the answer of R127 for the packet in the registers. -/
theorem decodeRunsThePacketsRow : Obligations.DecodeRunsThePacketsRow := by
  intro s i hv hh hd
  have hlen : s.block.payload.length ≤ maxPayload := by
    have := s.block.lenReg.isLt
    simp only [Block.payload, Memory.length_slice, payloadLength, maxPayload]
    omega
  obtain rfl : decodeRow s.block.funcReg s.block.a1Reg s.block.a2Reg s.block.payload = i :=
    Except.ok.inj ((decode_packetKey hlen).symm.trans hd)
  exact (execDecode_of_pktValid hv).trans (exec_decodeRow _ _ _ _ hh).symm

/-! ## The response word -/

theorem EventCode.code_le_four (ev : EventCode) : ev.code.toNat ≤ 4 := by cases ev <;> decide

theorem LogCode.code_bounds (l : LogCode) : 1 ≤ l.code.toNat ∧ l.code.toNat ≤ 4 := by cases l <;> decide

/-- Nothing in bits [31:12] of a response word (R71). -/
theorem Response.word_high (r : Response) : r.word.extractLsb' 12 20 = 0 := by
  cases r <;> simp [Response.word, BitVec.extractLsb'_or, extractLsb'_field_disjoint]

/-- Settles O60: a response word is an `or` of fields at disjoint places, and the codes are their definitions. -/
theorem responseAndLogFormats : Obligations.ResponseAndLogFormats := by
  refine ⟨Response.word_high, fun _ => ⟨rfl, rfl⟩, fun _ => ⟨rfl, rfl⟩, fun st p => ?_, fun _ _ => rfl, fun _ => rfl,
    fun ev bits => ?_, ⟨rfl, rfl, rfl, rfl, rfl, EventCode.code_le_four⟩, ⟨rfl, rfl, rfl, rfl, LogCode.code_bounds⟩⟩
  · simp [Response.word, Response.op, BitVec.extractLsb'_or, extractLsb'_field_same, extractLsb'_field_disjoint]
  · simp [Response.word, Response.op, Response.tail, BitVec.extractLsb'_or, extractLsb'_field_same,
      extractLsb'_field_disjoint]

end Sys2Proof.Machine
end

section
/-!
SUPPORT. The CRC unit (40_crc.md). The rounds of the direct and of the reflected form are iterates of one round each.
Reversal carries one form into the other (R86); a reflected round is linear, which gives the table form (R87) and the
zero residue of a whole frame (R92); and a direct round is injective when bit 0 of the polynomial is set, so one changed
byte changes the CRC (R91).
-/

namespace Sys2Proof.Machine

/-! ## The rounds and the operation -/

theorem crcRounds_eq_iterate (poly : Half) (n : Nat) : crcRounds poly n = (crcRound poly)^[n] := by
  funext c
  induction n generalizing c with
  | zero => rfl
  | succ n ih => exact ih (crcRound poly c)

theorem reflectedRounds_eq_iterate (n : Nat) : reflectedRounds n = reflectedRound^[n] := by
  funext r
  induction n generalizing r with
  | zero => rfl
  | succ n ih => exact ih (reflectedRound r)

theorem crcRounds_eq_foldl_range (poly : Half) (n : Nat) (c : Half) :
    crcRounds poly n c = (List.range n).foldl (fun c _ => crcRound poly c) c := by
  rw [crcRounds_eq_iterate, List.foldl_const, List.length_range]

theorem reflectedRounds_eq_foldl_range (n : Nat) (r : Half) :
    reflectedRounds n r = (List.range n).foldl (fun r _ => reflectedRound r) r := by
  rw [reflectedRounds_eq_iterate, List.foldl_const, List.length_range]

/-- Settles O12: the definitions say R83 to R85, the eight rounds being a fold over eight places. -/
theorem crc16Answers : Obligations.Crc16Answers :=
  ⟨fun p _ _ => crcRounds_eq_foldl_range p.poly 8 _, fun _ _ => rfl, fun _ _ _ => rfl, fun _ _ => rfl, fun _ => rfl,
    by decide⟩

/-! ## The reflected form -/

theorem reverse_xor {w : Nat} (x y : BitVec w) : (x ^^^ y).reverse = x.reverse ^^^ y.reverse := by
  ext i hi
  simp [BitVec.getElem_reverse]

theorem reverse_shiftLeft {w : Nat} (x : BitVec w) (n : Nat) : (x <<< n).reverse = x.reverse >>> n := by
  ext i hi
  simp [BitVec.getElem_reverse, BitVec.getMsbD_shiftLeft, BitVec.getLsbD_reverse, Nat.add_comm]

/-- A byte in the high half of the register, reversed, is the reversed byte in the low half. -/
theorem reverse_highByte (b : Byte) : (b.setWidth 16 <<< 8).reverse = b.reverse.setWidth 16 := by
  rw [reverse_shiftLeft]
  ext i hi
  simp [BitVec.getLsbD_reverse, BitVec.getMsbD_setWidth]

theorem reverse_poly : (0x8005 : Half).reverse = 0xA001 := by decide

theorem reverse_crcRound (c : Half) : (crcRound 0x8005 c).reverse = reflectedRound c.reverse := by
  have hbit : c.reverse.getLsbD 0 = c.getLsbD 15 := BitVec.getLsbD_reverse
  simp only [reflectedRound, crcRound, hbit, apply_ite BitVec.reverse, reverse_xor, reverse_shiftLeft, reverse_poly]

theorem reverse_crcRounds (n : Nat) (c : Half) : (crcRounds 0x8005 n c).reverse = reflectedRounds n c.reverse := by
  rw [reflectedRounds_eq_iterate, crcRounds_eq_iterate]
  exact Function.Semiconj.iterate_right reverse_crcRound n c

theorem reflectedStep_reverse (c : Half) (b : Byte) :
    reflectedStep c.reverse b = (crcStep CrcParams.modbus c b).reverse := by
  have hb : b.setWidth 16 = (b.reverse.setWidth 16 <<< 8).reverse := by rw [reverse_highByte, BitVec.reverse_reverse_eq]
  rw [reflectedStep, hb, ← reverse_xor, ← reverse_crcRounds]
  rfl

theorem foldl_reflectedStep_reverse (c : Half) (bytes : List Byte) :
    bytes.foldl reflectedStep c.reverse = (crcFold CrcParams.modbus c bytes).reverse :=
  List.foldl_hom BitVec.reverse reflectedStep_reverse

theorem crcFinal_modbus (c : Half) : crcFinal CrcParams.modbus c = c.reverse := BitVec.xor_zero

theorem crc16Reflected_eq_crc16 (bytes : List Byte) : crc16Reflected bytes = crc16 CrcParams.modbus bytes := by
  have hinit : (0xFFFF : Half) = CrcParams.modbus.init.reverse := by decide
  rw [crc16Reflected, hinit, foldl_reflectedStep_reverse, crc16, crcFinal_modbus]

/-- Settles O13: reversal carries each round of the direct form to one of the reflected form. -/
theorem reflectedFormAgrees : Obligations.ReflectedFormAgrees :=
  ⟨reverse_poly, fun _ _ => reflectedRounds_eq_foldl_range 8 _, fun _ => rfl, reflectedStep_reverse,
    crc16Reflected_eq_crc16⟩

/-! ## The table form -/

theorem reflectedRound_xor (r q : Half) : reflectedRound (r ^^^ q) = reflectedRound r ^^^ reflectedRound q := by
  simp only [reflectedRound, BitVec.getLsbD_xor, BitVec.ushiftRight_xor_distrib]
  cases r.getLsbD 0 <;> cases q.getLsbD 0
  · rfl
  · exact BitVec.xor_assoc ..
  · show r >>> 1 ^^^ q >>> 1 ^^^ 0xA001 = r >>> 1 ^^^ 0xA001 ^^^ q >>> 1
    ac_rfl
  · calc r >>> 1 ^^^ q >>> 1
      _ = r >>> 1 ^^^ q >>> 1 ^^^ (0xA001 ^^^ 0xA001) := by rw [BitVec.xor_self, BitVec.xor_zero]
      _ = r >>> 1 ^^^ 0xA001 ^^^ (q >>> 1 ^^^ 0xA001) := by ac_rfl

theorem reflectedRounds_xor (n : Nat) (r q : Half) :
    reflectedRounds n (r ^^^ q) = reflectedRounds n r ^^^ reflectedRounds n q := by
  rw [reflectedRounds_eq_iterate]
  exact Function.Semiconj₂.iterate reflectedRound_xor n r q

/-- Rounds that meet only zeros at bit 0 are shifts. -/
theorem reflectedRounds_of_low_zero {n : Nat} {r : Half} (h : ∀ i < n, r.getLsbD i = false) :
    reflectedRounds n r = r >>> n := by
  induction n generalizing r with
  | zero => simp [reflectedRounds]
  | succ n ih =>
    have hround : reflectedRound r = r >>> 1 := by rw [reflectedRound, h 0 n.succ_pos]; rfl
    have hshift : ∀ i < n, (r >>> 1).getLsbD i = false := fun i hi => by simpa using h (1 + i) (by omega)
    rw [reflectedRounds, hround, ih hshift, ← BitVec.shiftRight_add, Nat.add_comm]

theorem byte_shiftRight_eight (b : Byte) : b.setWidth 16 >>> 8 = 0#16 := by
  ext i hi
  simp

theorem byteLo_byte (b : Byte) : byteLo (b.setWidth 16) = b := by
  simpa [half] using byteLo_half b 0

theorem byteLo_xor (r q : Half) : byteLo (r ^^^ q) = byteLo r ^^^ byteLo q := BitVec.extractLsb'_xor

theorem byteLo_xor_byte (r : Half) (b : Byte) : byteLo (r ^^^ b.setWidth 16) = byteLo r ^^^ b := by
  rw [byteLo_xor, byteLo_byte]

/-- Eight rounds shift the high byte down and look the low byte up in the table (R87). -/
theorem reflectedRounds_eight (r : Half) : reflectedRounds 8 r = (r >>> 8) ^^^ crcTable (byteLo r) := by
  have hlow : ∀ i < 8, (r ^^^ (byteLo r).setWidth 16).getLsbD i = false := fun i hi => by
    simp [byteLo, hi, show i < 16 by omega]
  calc reflectedRounds 8 r
    _ = reflectedRounds 8 (r ^^^ (byteLo r).setWidth 16 ^^^ (byteLo r).setWidth 16) := by
      rw [BitVec.xor_assoc, BitVec.xor_self, BitVec.xor_zero]
    _ = ((r ^^^ (byteLo r).setWidth 16) >>> 8) ^^^ crcTable (byteLo r) := by
      rw [reflectedRounds_xor, reflectedRounds_of_low_zero hlow, crcTable]
    _ = (r >>> 8) ^^^ crcTable (byteLo r) := by
      rw [BitVec.ushiftRight_xor_distrib, byte_shiftRight_eight, BitVec.xor_zero]

theorem tableStep_eq_reflectedStep : tableStep = reflectedStep := by
  funext r b
  rw [tableStep, reflectedStep, reflectedRounds_eight, byteLo_xor_byte, BitVec.ushiftRight_xor_distrib,
    byte_shiftRight_eight, BitVec.xor_zero]

theorem crc16Table_eq_crc16Reflected (bytes : List Byte) : crc16Table bytes = crc16Reflected bytes := by
  rw [crc16Table, tableStep_eq_reflectedStep, crc16Reflected]

theorem crc16Table_eq_foldl_extract (bytes : List Byte) :
    crc16Table bytes =
      bytes.foldl (fun (r : Half) (b : Byte) => (r >>> 8) ^^^ crcTable (byteLo (r ^^^ b.setWidth 16))) 0xFFFF := by
  simp only [byteLo_xor_byte]
  rfl

/-- Settles O14: the high byte meets only shifts in its eight rounds, and the low byte's rounds are its table entry. -/
theorem tableFormAgrees : Obligations.TableFormAgrees :=
  ⟨crc16Table_eq_crc16Reflected, crc16Table_eq_foldl_extract, fun _ => reflectedRounds_eq_foldl_range 8 _,
    by decide, by decide, by decide, by decide, by decide, by decide, by decide⟩

/-! ## The residue of a whole frame -/

theorem crcTable_zero : crcTable 0#8 = 0#16 := by decide

/-- A byte equal to the register's low byte only shifts the register. -/
theorem tableStep_byteLo (c : Half) : tableStep c (byteLo c) = c >>> 8 := by
  rw [tableStep, BitVec.xor_self, crcTable_zero, BitVec.xor_zero]

/-- The register's own two bytes, low byte first, clear it. -/
theorem tableStep_own_bytes (c : Half) : tableStep (tableStep c (byteLo c)) (byteHi c) = 0 := by
  have hhigh : byteHi c = byteLo (c >>> 8) := by ext i hi; simp [byteHi, byteLo]
  have hempty : c >>> 8 >>> 8 = 0 := by rw [← BitVec.shiftRight_add]; exact BitVec.ushiftRight_eq_zero (by decide)
  rw [tableStep_byteLo, hhigh, tableStep_byteLo, hempty]

theorem crc16Table_append_own_bytes (bytes : List Byte) :
    crc16Table (bytes ++ [byteLo (crc16Table bytes), byteHi (crc16Table bytes)]) = 0 := by
  simp only [crc16Table, List.foldl_append, List.foldl_cons, List.foldl_nil, tableStep_own_bytes]

theorem crc16Table_eq_crc16 (bytes : List Byte) : crc16Table bytes = crc16 CrcParams.modbus bytes :=
  (crc16Table_eq_crc16Reflected bytes).trans (crc16Reflected_eq_crc16 bytes)

/-- Settles O15: a frame is its covered bytes followed by their CRC's two bytes, low byte first. -/
theorem wholeFrameResidueIsZero : Obligations.WholeFrameResidueIsZero := by
  intro f a1 a2 data _
  rw [encodeFrame, frameBytes, ← crc16Table_eq_crc16, ← crc16Table_eq_crc16]
  exact crc16Table_append_own_bytes _

/-! ## One changed byte -/

theorem crcRound_getLsbD_zero {poly : Half} (hp : poly.getLsbD 0 = true) (c : Half) :
    (crcRound poly c).getLsbD 0 = c.getLsbD 15 := by
  cases h : c.getLsbD 15
  · rw [crcRound, h]; simp
  · rw [crcRound, h]; simpa using hp

/-- With bit 0 of the polynomial set, a round can be undone: bit 0 tells whether the polynomial was xored in. -/
theorem crcRound_injective {poly : Half} (hp : poly.getLsbD 0 = true) : Function.Injective (crcRound poly) := by
  intro c d h
  have htop : c.getLsbD 15 = d.getLsbD 15 := by
    rw [← crcRound_getLsbD_zero hp, h, crcRound_getLsbD_zero hp]
  have hshift : c <<< 1 = d <<< 1 := by
    rw [crcRound, crcRound, ← htop] at h
    split at h
    · exact (BitVec.xor_left_inj _).1 h
    · exact h
  refine BitVec.eq_of_getLsbD_eq fun i hi => ?_
  by_cases h15 : i = 15
  · rw [h15, htop]
  · have hbit := congrArg (BitVec.getLsbD · (i + 1)) hshift
    simpa [show i + 1 < 16 by omega, -BitVec.getLsbD_eq_getElem] using hbit

theorem reflectIf_injective {w : Nat} (refl : Bool) : Function.Injective (reflectIf (w := w) refl) := by
  cases refl
  · exact fun _ _ h => h
  · exact Function.LeftInverse.injective (g := BitVec.reverse) fun _ => BitVec.reverse_reverse_eq

theorem crcFinal_injective (p : CrcParams) : Function.Injective (crcFinal p) := fun _ _ h =>
  reflectIf_injective p.refout ((BitVec.xor_left_inj _).1 h)

theorem highByte_injective : Function.Injective fun b : Byte => (b.setWidth 16 <<< 8 : Half) :=
  Function.LeftInverse.injective (g := byteHi) fun b => by simpa [half] using byteHi_half 0 b

section
variable {p : CrcParams} (hp : p.poly.getLsbD 0 = true)
include hp

theorem crcRounds_injective (n : Nat) : Function.Injective (crcRounds p.poly n) := by
  rw [crcRounds_eq_iterate]
  exact (crcRound_injective hp).iterate n

theorem crcStep_injective_register (b : Byte) : Function.Injective (crcStep p · b) := fun _ _ h =>
  (BitVec.xor_left_inj _).1 (crcRounds_injective hp 8 h)

theorem crcStep_injective_byte (c : Half) : Function.Injective (crcStep p c) := fun _ _ h =>
  reflectIf_injective p.refin (highByte_injective ((BitVec.xor_right_inj _).1 (crcRounds_injective hp 8 h)))

theorem crcFold_injective (bytes : List Byte) : Function.Injective (crcFold p · bytes) := by
  induction bytes with
  | nil => exact Function.injective_id
  | cons b bytes ih => exact ih.comp (crcStep_injective_register hp b)

end

theorem crcFold_append_cons (p : CrcParams) (c : Half) (before after : List Byte) (b : Byte) :
    crcFold p c (before ++ b :: after) = crcFold p (crcStep p (crcFold p c before) b) after := by
  simp [crcFold]

/-- Settles O16: every map from the changed byte to the CRC is injective. -/
theorem oneByteChangeChangesCrc : Obligations.OneByteChangeChangesCrc := by
  intro p before after b b' hp hne h
  have hfold := crcFinal_injective p h
  rw [crcFold_append_cons, crcFold_append_cons] at hfold
  exact hne (crcStep_injective_byte hp _ (crcFold_injective hp after hfold))

end Sys2Proof.Machine
end

section
/-!
SUPPORT. The TX framer's operation (R94, R95), and the READ_PACKET that reads its frame back (R98): one machine step per
byte, noise in HUNT, the header, the payload stored byte by byte, and the checksum that ends the read.
-/

namespace Sys2Proof.Machine

/-! ## ENCODE -/

theorem execEncode_of_le {data : List Byte} (f a1 a2 : Byte) (s : State) (h : data.length ≤ maxPayload) :
    execEncode f a1 a2 data s = .next (s.respond (.frame (encodeFrame s.config.crc f a1 a2 data))) := if_pos h

theorem execEncode_of_lt {data : List Byte} (f a1 a2 : Byte) (s : State) (h : maxPayload < data.length) :
    execEncode f a1 a2 data s = .refused .encodeTooLong := if_neg (not_le.2 h)

/-- The length field of a payload that fits does not wrap (R58, R94). -/
theorem frameLength_toNat {n : Nat} (h : n ≤ maxPayload) : (frameLength n).toNat = n + 7 := by
  unfold maxPayload at h
  rw [frameLength, BitVec.toNat_ofNat, Nat.mod_eq_of_lt (by omega)]

/-- Settles O17: the frame answered is `encodeFrame`, written out. -/
theorem encodeAnswersFrame : Obligations.EncodeAnswersFrame := fun f a1 a2 _ s _ hlen =>
  ⟨frameLength_toNat hlen, execEncode_of_le f a1 a2 s hlen⟩

/-- Settles O18: 65528 is the limit ENCODE checks its data against. -/
theorem encodeTooLongRefused : Obligations.EncodeTooLongRefused := fun f a1 a2 _ s hlen =>
  execEncode_of_lt f a1 a2 s hlen

/-! ## A machine step that takes one byte -/

/-- In every state but IDLE, an item step takes the byte at the head of the stream by the rule of the state (R101). -/
theorem rxItem_of_byte {s : State} {ph : RxPhase} {x : Byte} {rest : List Byte} (hs : s.block.rxState = ph.code)
    (hph : ph ≠ .idle) (hx : s.rxBytes = x :: rest) :
    rxItem s = .next { s with rxBytes := rest, block := rxByte s.config.crc ph s.block x } := by
  cases ph
  case idle => exact absurd rfl hph
  all_goals simp [rxItem, State.streamRead, State.setBlock, hs, hx]

/-- No turn is listed and no input is raised: while a READ_PACKET runs and bytes are there, the block moves (R101,
assumption 5). -/
def State.Undisturbed (s : State) : Prop := s.turns = [] ∧ s.rst = false ∧ s.cancel = false

theorem State.Undisturbed.step_of_byte {s : State} {ph : RxPhase} {x : Byte} {rest : List Byte} (hu : s.Undisturbed)
    (hr : s.block.Running ph) (hx : s.rxBytes = x :: rest) :
    step s = .next { s with rxBytes := rest, block := rxByte s.config.crc ph s.block x } := by
  obtain ⟨hturns, hrst, hcancel⟩ := hu
  have enabled : s.blockEnabled = true := by simp [State.blockEnabled, hr.busy, hx]
  have reads : s.Reads ph := ⟨hrst, hcancel, hr.busy, hr.state⟩
  rw [step_eq_defaultTurn hr.registerInv.1 hturns, defaultTurn, if_pos enabled, reads.blockTurn_eq_rxItem,
    rxItem_of_byte hr.state hr.reads hx]

theorem run_succ_of_next {M : Host.Core} {s t : M.State} (k : Nat) (h : M.step s = .next t) :
    M.run (k + 1) s = M.run k t := by
  simp only [Host.Core.run, h]

/-! ## A run of READ_PACKET over a list of bytes -/

/-- A running READ_PACKET takes the bytes one after another, by the rule of the state it stands in at each (R102). -/
inductive Block.Takes (p : CrcParams) : Block → List Byte → Block → Prop
  | nil (b : Block) : Takes p b [] b
  | cons {b b' : Block} {ph : RxPhase} {x : Byte} {bytes : List Byte} (running : b.Running ph)
      (next : Takes p (rxByte p ph b x) bytes b') : Takes p b (x :: bytes) b'

theorem Block.Takes.append {p : CrcParams} {b b' b'' : Block} {xs ys : List Byte} (h : b.Takes p xs b')
    (h' : b'.Takes p ys b'') : b.Takes p (xs ++ ys) b'' := by
  induction h with
  | nil => exact h'
  | cons running _ ih => exact .cons running (ih h')

theorem Block.Takes.checksumInv {p : CrcParams} {b b' : Block} {bytes : List Byte} (h : b.Takes p bytes b')
    (hc : b.ChecksumInv p) : b'.ChecksumInv p := by
  induction h with
  | nil => exact hc
  | cons running _ ih => exact ih (running.rxByte_checksumInv hc _)

/-- The machine makes one step per byte, and changes nothing but the stream and the block. -/
theorem Block.Takes.run {b b' : Block} {bytes rest : List Byte} {s : State} (h : b.Takes s.config.crc bytes b')
    (hu : s.Undisturbed) (hb : s.block = b) (hx : s.rxBytes = bytes ++ rest) :
    Host.Core.run core bytes.length s = .next { s with rxBytes := rest, block := b' } := by
  generalize hp : s.config.crc = p at h
  induction h generalizing s with
  | nil b =>
    subst hb
    obtain rfl : s.rxBytes = rest := hx
    rfl
  | cons running _ ih =>
    subst hb hp
    exact (run_succ_of_next (M := core) _ (hu.step_of_byte running hx)).trans (ih hu rfl rfl rfl)

/-! ## Noise before the frame -/

/-- The block after HUNT has logged each of the bytes as noise (R105). -/
def Block.logNoise (b : Block) (noise : List Byte) : Block :=
  { b with logPort := b.logPort ++ noise.map fun x => ⟨.noiseByte, x.setWidth 16, 0⟩ }

@[simp] theorem Block.logNoise_nil (b : Block) : b.logNoise [] = b := by
  simp [Block.logNoise]

/-- One byte of noise skipped in HUNT, before the noise that follows it (R105). -/
theorem Block.Running.logNoise_rxHunt {b : Block} (p : CrcParams) {x : Byte} (h : b.Running .hunt) (hx : x ≠ sync)
    (noise : List Byte) : (rxHunt p b x).logNoise noise = b.logNoise (x :: noise) := by
  rw [rxHunt, if_neg hx, ← h.state]
  simp [Block.logNoise, Block.log]

/-- HUNT skips the noise and logs each byte of it in order (R105). -/
theorem Block.Running.takes_noise {b : Block} (p : CrcParams) {noise : List Byte} (h : b.Running .hunt)
    (hn : ∀ x ∈ noise, x ≠ sync) : b.Takes p noise (b.logNoise noise) ∧ (b.logNoise noise).Running .hunt := by
  induction noise generalizing b with
  | nil => exact b.logNoise_nil.symm ▸ ⟨.nil b, h⟩
  | cons x noise ih =>
    obtain ⟨hx, hn⟩ := List.forall_mem_cons.1 hn
    obtain ⟨takes, running⟩ := ih (rxHunt_running_noise p h hx) hn
    rw [h.logNoise_rxHunt p hx] at takes running
    exact ⟨.cons h takes, running⟩

/-! ## Header and payload -/

/-- The block `b`, past the header of the packet `pk`, has stored `bytes` of its payload; since the block `b₀` it has
written nothing to the ports. -/
structure Block.Stores (b₀ : Block) (pk : Packet) (bytes : List Byte) (b : Block) : Prop where
  running : ∃ ph, (ph = .data ∨ ph = .crcLo) ∧ b.Running ph
  function : b.funcReg = pk.function
  address1 : b.a1Reg = pk.address1
  address2 : b.a2Reg = pk.address2
  length : b.lenReg = pk.length
  stored : Memory.slice b.payBuf 0 b.payCnt.toNat = bytes
  respPort : b.respPort = b₀.respPort
  logPort : b.logPort = b₀.logPort

theorem Block.Stores.payCnt {b₀ b : Block} {pk : Packet} {bytes : List Byte} (h : b₀.Stores pk bytes b) :
    b.payCnt.toNat = bytes.length := by
  rw [← h.stored, Memory.length_slice]

/-- A payload that is not complete is still being stored (R111). -/
theorem Block.Stores.running_data {b₀ b : Block} {pk : Packet} {bytes : List Byte} (h : b₀.Stores pk bytes b)
    (hlt : bytes.length < payloadLength pk.length) : b.Running .data := by
  obtain ⟨ph, rfl | rfl, hr⟩ := h.running
  · exact hr
  · have := hr.stored (.inl rfl)
    rw [h.payCnt, h.length] at this
    omega

/-- After a complete payload the checksum is next (R110, R111). -/
theorem Block.Stores.running_crcLo {b₀ b : Block} {pk : Packet} {bytes : List Byte} (h : b₀.Stores pk bytes b)
    (heq : bytes.length = payloadLength pk.length) : b.Running .crcLo := by
  obtain ⟨ph, rfl | rfl, hr⟩ := h.running
  · have := hr.storing rfl
    rw [h.payCnt, h.length] at this
    omega
  · exact hr

theorem rxLenHi_of_le {b : Block} (p : CrcParams) {x : Byte} {len : Half} (h : half (byteLo b.lenReg) x = len)
    (h7 : 7 ≤ len.toNat) :
    rxLenHi p b x = { b with lenReg := len, rxAcc := crcStep p b.rxAcc x, rxState := RxPhase.func.code } := by
  subst h
  rw [rxLenHi, if_neg (not_lt.2 h7)]

/-- The six header bytes of a packet are read into its registers (R104, R106 to R110). -/
theorem Block.Running.takes_header {b : Block} (p : CrcParams) {pk : Packet} (h : b.Running .hunt)
    (h7 : 7 ≤ pk.length.toNat) :
    ∃ b', b.Takes p (frameHeader pk.length pk.function pk.address1 pk.address2) b' ∧ b.Stores pk [] b' := by
  have lenLo := rxHunt_running_sync p h
  have lenHi := rxLenLo_running p (byteLo pk.length) lenLo
  have hlen : half (byteLo (rxLenLo p (rxHunt p b sync) (byteLo pk.length)).lenReg) (byteHi pk.length) = pk.length := by
    simp [rxLenLo]
  have func := rxLenHi_running p lenHi (x := byteHi pk.length) (by rw [hlen]; omega)
  have addr1 := rxFunc_running p pk.function func
  have addr2 := rxAddr1_running p pk.address1 addr1
  refine ⟨_, .cons h (.cons lenLo (.cons lenHi (.cons func (.cons addr1 (.cons addr2 (.nil _)))))), ?_⟩
  have running := rxAddr2_running p pk.address2 addr2
  simp only [rxByte]
  rw [rxLenHi_of_le p hlen h7] at running ⊢
  exact ⟨running, rfl, rfl, rfl, rfl, rfl, rfl, rfl⟩

/-- A payload byte is stored after those before it (R111). -/
theorem Block.Stores.rxData {b₀ b : Block} {pk : Packet} {bytes : List Byte} (h : b₀.Stores pk bytes b)
    (hr : b.Running .data) (p : CrcParams) (x : Byte) : b₀.Stores pk (bytes ++ [x]) (rxData p b x) :=
  { running := rxData_running p x hr
    function := h.function, address1 := h.address1, address2 := h.address2, length := h.length
    respPort := h.respPort, logPort := h.logPort
    stored := by
      show Memory.slice (Memory.write b.payBuf b.payCnt.toNat x) 0 (b.payCnt + 1).toNat = bytes ++ [x]
      rw [hr.payCnt_succ.1, Memory.slice_write_next hr.payBuf, h.stored] }

/-- The bytes that complete the payload are stored one after another (R111). -/
theorem Block.Stores.takes_payload {b₀ b : Block} {pk : Packet} {bytes more : List Byte} (p : CrcParams)
    (h : b₀.Stores pk bytes b) (hlen : bytes.length + more.length = payloadLength pk.length) :
    ∃ b', b.Takes p more b' ∧ b₀.Stores pk (bytes ++ more) b' := by
  induction more generalizing b bytes with
  | nil => exact ⟨b, .nil b, by simpa using h⟩
  | cons x more ih =>
    rw [List.length_cons] at hlen
    have hr := h.running_data (by omega)
    obtain ⟨b', takes, stores⟩ := ih (h.rxData hr p x) (by rw [List.length_append, List.length_singleton]; omega)
    exact ⟨b', .cons hr takes, by simpa using stores⟩

/-! ## The checksum and the whole frame -/

/-- In CRC_HI a checksum that matches makes the packet valid and ends the read (R113, R114). -/
theorem rxCrcHi_of_match {p : CrcParams} {b : Block} {x : Byte} {crc : Half} (hrecv : half b.crcRxLo x = crc)
    (hcrc : crcFinal p b.rxAcc = crc) :
    rxCrcHi p b x =
      Block.finish { b with lastCrcCalc := crc, lastCrcRecv := crc, pktValid := true } .packetOk := by
  simp [rxCrcHi, hrecv, hcrc]

/-- What a READ_PACKET that reads the packet `pk` leaves in the block (R115). -/
structure Block.Answers (b₀ : Block) (pk : Packet) (b : Block) : Prop where
  busy : b.busy = false
  pktValid : b.pktValid = true
  lastResult : b.lastResult = .packetOk
  respPort : b.respPort = b₀.respPort ++ [.read .packetOk (some pk)]
  logPort : b.logPort = b₀.logPort

/-- A packet whose payload is stored is answered when its two checksum bytes arrive, if the checksum is that of its
covered bytes (R112 to R115). -/
theorem Block.Stores.takes_checksum {p : CrcParams} {b₀ b : Block} {pk : Packet} (h : b₀.Stores pk pk.payload b)
    (hc : b.ChecksumInv p) (hlen : pk.payload.length = payloadLength pk.length)
    (hcrc : crc16 p (frameHeader pk.length pk.function pk.address1 pk.address2 ++ pk.payload) = pk.checksum) :
    ∃ b', b.Takes p [byteLo pk.checksum, byteHi pk.checksum] b' ∧ b₀.Answers pk b' := by
  have crcLo := h.running_crcLo hlen
  have crcHi := rxCrcLo_running (byteLo pk.checksum) crcLo
  have payload : b.payload = pk.payload := by
    rw [Block.payload, ← crcLo.stored (.inl rfl), h.stored]
  have computed : crcFinal p (rxCrcLo b (byteLo pk.checksum)).rxAcc = pk.checksum := by
    rw [crcHi.crcFinal_eq (rxCrcLo_checksumInv _ crcLo hc), ← hcrc]
    show crc16 p (frameHeader b.lenReg b.funcReg b.a1Reg b.a2Reg ++ b.payload) = _
    rw [h.length, h.function, h.address1, h.address2, payload]
  have ended := rxCrcHi_of_match (x := byteHi pk.checksum) (half_byteLo_byteHi pk.checksum) computed
  refine ⟨_, .cons crcLo (.cons crcHi (.nil _)), ?_⟩
  show b₀.Answers pk (rxCrcHi p (rxCrcLo b (byteLo pk.checksum)) (byteHi pk.checksum))
  rw [ended]
  refine ⟨rfl, rfl, rfl, ?_, h.logPort⟩
  show b.respPort ++ [.read .packetOk (some ⟨b.funcReg, b.a1Reg, b.a2Reg, b.lenReg, b.payload, pk.checksum⟩)] = _
  rw [h.respPort, h.function, h.address1, h.address2, h.length, payload]

/-- A READ_PACKET in HUNT takes a packet's frame and answers the packet, if its length is its payload's and its
checksum that of its covered bytes (R98, R115). -/
theorem Block.Running.takes_frame {p : CrcParams} {b : Block} {pk : Packet} (h : b.Running .hunt)
    (hlen : pk.length.toNat = pk.payload.length + 7)
    (hcrc : crc16 p (frameHeader pk.length pk.function pk.address1 pk.address2 ++ pk.payload) = pk.checksum) :
    ∃ b', b.Takes p pk.frame b' ∧ b.Answers pk b' := by
  have hpay : pk.payload.length = payloadLength pk.length := by rw [payloadLength]; omega
  have hc : b.ChecksumInv p := Block.checksumInv_of_none (Block.absorbed_eq_none (.inr h.state)) h.pktValid
  obtain ⟨b1, header, stores⟩ := h.takes_header p (pk := pk) (by omega)
  obtain ⟨b2, payload, stores⟩ := stores.takes_payload p (more := pk.payload) (by simpa using hpay)
  have covered := header.append payload
  obtain ⟨b3, checksum, answers⟩ := stores.takes_checksum (covered.checksumInv hc) hpay hcrc
  exact ⟨b3, covered.append checksum, answers⟩

/-! ## READ_PACKET on the frame ENCODE builds -/

/-- The packet whose frame ENCODE answers (R94). -/
def encodedPacket (p : CrcParams) (f a1 a2 : Byte) (data : List Byte) : Packet :=
  { function := f, address1 := a1, address2 := a2, length := frameLength data.length, payload := data
    checksum := crc16 p (frameHeader (frameLength data.length) f a1 a2 ++ data) }

theorem encodedPacket_frame (p : CrcParams) (f a1 a2 : Byte) (data : List Byte) :
    (encodedPacket p f a1 a2 data).frame = encodeFrame p f a1 a2 data := rfl

theorem encodeFrame_length (p : CrcParams) (f a1 a2 : Byte) (data : List Byte) :
    (encodeFrame p f a1 a2 data).length = 8 + data.length := by
  simp [encodeFrame, frameBytes, frameHeader]
  omega

/-- The block after it has taken READ_PACKET (R100). -/
def Block.readTaken (b : Block) : Block :=
  { b with busy := true, curOp := 3, pktValid := false, payCnt := 0, rxState := RxPhase.hunt.code }

theorem exec_readPacket (s : State) : exec .readPacket s = .next (s.setBlock s.block.readTaken) := rfl

/-- A READ_PACKET at the head of the command port is taken in one step (R68, R100). -/
theorem State.TakesCommand.step_readPacket {s : State} {more : List Command} (h : s.TakesCommand)
    (hp : s.cmdPort = ⟨0x00000003, []⟩ :: more) :
    step s = .next { s with cmdPort := more, cancel := false, block := s.block.readTaken } := by
  obtain ⟨hturns, hrst, -, hbusy, hfault⟩ := h
  have hd : decodeCommand ⟨0x00000003, []⟩ = .ok .readPacket := rfl
  rw [stepRunsDecodedCommand s _ _ _ hturns hrst hbusy hfault hp hd, exec_readPacket]
  rfl

theorem Block.readTaken_running {b : Block} (h : b.payBuf.wf) : b.readTaken.Running .hunt :=
  ⟨nofun, rfl, rfl, rfl, (absurd · (by decide)), nofun, nofun, h, rfl⟩

/-- After noise and the frame ENCODE builds, a READ_PACKET has logged the noise and answers the packet (R98, R105). -/
theorem Block.Running.takes_noise_frame {b : Block} (p : CrcParams) (f a1 a2 : Byte) {noise data : List Byte}
    (h : b.Running .hunt) (hn : ∀ x ∈ noise, x ≠ sync) (hlen : data.length ≤ maxPayload) :
    ∃ b', b.Takes p (noise ++ encodeFrame p f a1 a2 data) b' ∧
      (b.logNoise noise).Answers (encodedPacket p f a1 a2 data) b' := by
  obtain ⟨skipped, running⟩ := h.takes_noise p hn
  obtain ⟨b', frame, answers⟩ :=
    running.takes_frame (pk := encodedPacket p f a1 a2 data) (frameLength_toNat hlen) rfl
  exact ⟨b', skipped.append frame, answers⟩

/-- Settles O31: one step takes the command into HUNT, and each further step takes one byte of the noise and the
frame. -/
theorem frameReadsBack : Obligations.FrameReadsBack := by
  intro s noise data rest f a1 a2 more htakes hwf hport hnoise hlen hbytes
  obtain ⟨b', takes, answers⟩ :=
    (Block.readTaken_running hwf).takes_noise_frame s.config.crc f a1 a2 hnoise hlen
  have count : 1 + noise.length + (8 + data.length) = (noise ++ encodeFrame s.config.crc f a1 a2 data).length + 1 := by
    rw [List.length_append, encodeFrame_length]
    omega
  refine ⟨{ s with cmdPort := more, cancel := false, rxBytes := rest, block := b' },
    (encodedPacket s.config.crc f a1 a2 data).checksum, ?_, rfl, rfl, rfl, answers.busy, answers.pktValid,
    answers.lastResult, answers.logPort, answers.respPort⟩
  have taken := htakes.step_readPacket hport
  obtain ⟨hturns, hrst, -⟩ := htakes
  rw [count, run_succ_of_next (M := core) _ taken]
  exact takes.run (s := { s with cmdPort := more, cancel := false, block := s.block.readTaken }) ⟨hturns, hrst, rfl⟩
    rfl hbytes

end Sys2Proof.Machine
end

section
/-!
SUPPORT. The RX framer's operation, step by step: the inputs before the stream item (R101, R164), READ_PACKET taken and
cancelled (R100, R117), one byte taken in each state (R104 to R115), and the end of the stream (R116).
-/

namespace Sys2Proof.Machine

/-! ## One item of the stream -/

/-- With no input raised, the block's step in any state but IDLE takes the byte at the head of the stream by the rule
of that state, and changes nothing outside the stream and the block (R101, R102). -/
theorem State.Reads.blockTurn_of_byte {s : State} {ph : RxPhase} {x : Byte} {rest : List Byte} (h : s.Reads ph)
    (hph : ph ≠ .idle) (hx : s.rxBytes = x :: rest) :
    blockTurn s = .next { s with rxBytes := rest, block := rxByte s.config.crc ph s.block x } := by
  have ⟨_, _, _, hs⟩ := h
  rw [h.blockTurn_eq_rxItem, rxItem_of_byte hs hph hx]

/-- In every state but IDLE, an item step that finds the end mark ends the read and leaves the mark (R43, R116). -/
theorem rxItem_of_end {s : State} {ph : RxPhase} (hs : s.block.rxState = ph.code) (hph : ph ≠ .idle)
    (hx : s.rxBytes = []) (he : s.rxEof = true) : rxItem s = .next (s.setBlock (rxEnd s.block)) := by
  cases ph
  case idle => exact absurd rfl hph
  all_goals simp [rxItem, State.streamRead, hs, hx, he]

/-! ## DATA -/

/-- While payload bytes are stored their count is an index of the buffer: a 16-bit length states at most 65528 of them
(R8, R26). -/
theorem Block.Running.payCnt_lt_paySize {b : Block} (h : b.Running .data) : b.payCnt.toNat < paySize := by
  have hcnt := h.storing rfl
  have hlen := b.lenReg.isLt
  unfold payloadLength at hcnt
  unfold paySize
  omega

/-- Settles O25: a canonical buffer reads back the byte written at `pay_cnt` and no other changes, and the invariants of
R40 bound `pay_cnt` by the payload's length. -/
theorem dataByteStored : Obligations.DataByteStored := by
  intro s x rest hreads hinv hx
  have ⟨_, _, _, hs⟩ := hreads
  have running : s.block.Running .data := hinv.running hs nofun
  exact ⟨Memory.write s.block.payBuf s.block.payCnt.toNat x, Memory.read_write_same running.payBuf _ x,
    fun _ hk => Memory.read_write_other _ x hk, running.payCnt_succ.1, running.payCnt_lt_paySize,
    hreads.blockTurn_of_byte nofun hx⟩

/-! ## The inputs before the stream item -/

theorem blockTurn_of_rst {s : State} (hr : s.rst = true) : blockTurn s = exec .rst s.lowerInputs := by
  simp [blockTurn, decodeSideband, hr]

theorem blockTurn_of_cancel {s : State} (hr : s.rst = false) (hc : s.cancel = true) (hb : s.block.busy = true) :
    blockTurn s = exec .cancel { s with cancel := false } := by
  have hlow : s.lowerInputs = { s with cancel := false } := by simp [State.lowerInputs, hr]
  rw [← hlow]
  simp [blockTurn, decodeSideband, hr, hc, hb]

theorem exec_cancel_of_busy {s : State} (hb : s.block.busy = true) :
    exec .cancel s = .next (s.setBlock (s.block.finish .cancelled)) := by
  rw [exec, execCancel, if_pos hb]

theorem exec_cancel_of_idle {s : State} (hb : s.block.busy = false) : exec .cancel s = .next s := by
  rw [exec, execCancel, if_neg (by simp [hb])]

/-- With no model fault and no input raised, a busy block reads in some state of the framer but IDLE (R22, R40). -/
theorem State.reads_of_busy {s : State} (hm : s.block.modelFault = none) (hr : s.rst = false) (hc : s.cancel = false)
    (hb : s.block.busy = true) : ∃ ph, ph ≠ .idle ∧ s.Reads ph := by
  obtain ⟨hle, ⟨hbusy, -⟩⟩ := Block.modelFault_eq_none.1 hm
  cases hp : rxPhase s.block.rxState with
  | none => exact absurd (rxPhase_eq_none.1 hp) (not_lt.2 hle)
  | some ph =>
    have hs := rxPhase_eq_some hp
    exact ⟨ph, fun e => hbusy.1 hb (by rw [hs, e]), hr, hc, hb, hs⟩

/-- Settles O9: any of the three gives the block a step, and its step asks for them in this order. -/
theorem sidebandBeforeStream : Obligations.SidebandBeforeStream := by
  intro s ht hm
  have moves : s.blockEnabled = true → step s = blockTurn s := (stepMakesTheNextMove s hm).1 ht
  refine ⟨fun hr => ?_, fun hr hc hb => ?_, fun hr hc hb hx => ?_⟩
  · have reset := (moves (by simp [State.blockEnabled, hr])).trans (blockTurn_of_rst hr)
    exact ⟨reset, _, reset, rfl, rfl⟩
  · have cancel := (moves (by simp [State.blockEnabled, hc])).trans (blockTurn_of_cancel hr hc hb)
    exact ⟨cancel, _, cancel.trans (exec_cancel_of_busy hb), rfl, rfl⟩
  · obtain ⟨ph, hph, reads⟩ := State.reads_of_busy hm hr hc hb
    obtain ⟨x, rest, hbytes⟩ := List.exists_cons_of_ne_nil hx
    have taken := (moves (by simp [State.blockEnabled, hb, hbytes])).trans (reads.blockTurn_of_byte hph hbytes)
    exact ⟨_, taken, by rw [hbytes, List.tail_cons]⟩

/-! ## READ_PACKET taken and cancelled -/

/-- Settles O19: the step writes the five registers of R100, and a busy block takes no command. -/
theorem readPacketTaken : Obligations.ReadPacketTaken := fun s =>
  ⟨fun _ => exec_readPacket s, fun hb t h => commandWaitsWhileBusy s t hb h⟩

/-- Settles O30: a cancelled read ends by `finish`, with no packet. -/
theorem cancelEndsRead : Obligations.CancelEndsRead := fun _ => ⟨exec_cancel_of_busy, exec_cancel_of_idle⟩

/-! ## HUNT -/

theorem rxHunt_of_eq {x : Byte} (p : CrcParams) (b : Block) (hx : x = sync) :
    rxHunt p b x = { b with rxAcc := crcStep p p.init sync, rxState := RxPhase.lenLo.code } := by
  rw [rxHunt, if_pos hx, hx]

theorem rxHunt_of_ne {x : Byte} (p : CrcParams) (b : Block) (hx : x ≠ sync) :
    rxHunt p b x = Block.log { b with rxState := RxPhase.hunt.code } ⟨.noiseByte, x.setWidth 16, 0⟩ := if_neg hx

/-- Settles O21: a byte that is not the sync byte is logged and dropped. -/
theorem huntSkipsNoise : Obligations.HuntSkipsNoise := by
  intro s x rest hreads hne hx
  rw [hreads.blockTurn_of_byte nofun hx, rxByte, rxHunt_of_ne _ _ hne]
  rfl

/-- Settles O20: the sync byte starts the CRC and the length; after any other byte the block is in HUNT (O21). -/
theorem huntTakesSync : Obligations.HuntTakesSync := by
  intro s x rest hreads hx
  refine ⟨fun he => ?_, fun hne => ⟨_, huntSkipsNoise s x rest hreads hne hx, rfl⟩⟩
  rw [hreads.blockTurn_of_byte nofun hx, rxByte, rxHunt_of_eq _ _ he]
  rfl

/-! ## The length and the header bytes -/

/-- Settles O22: the new length is `half` of the byte and the old high byte. -/
theorem lengthLowByteRead : Obligations.LengthLowByteRead := fun s x _ hreads hx =>
  ⟨half x (byteHi s.block.lenReg), byteLo_half _ _, byteHi_half _ _, hreads.blockTurn_of_byte nofun hx⟩

/-- A length below 7 is logged and ends the read as soon as it is known (R107). -/
theorem rxLenHi_of_lt {b : Block} (p : CrcParams) {x : Byte} (h7 : (half (byteLo b.lenReg) x).toNat < 7) :
    rxLenHi p b x =
      (Block.log { b with lenReg := half (byteLo b.lenReg) x, rxAcc := crcStep p b.rxAcc x }
        ⟨.malformedLength, half (byteLo b.lenReg) x, 0⟩).finish .malformedLength := if_pos h7

/-- Settles O23: the new length is `half` of the old low byte and the byte, and it is compared with 7 at once. -/
theorem lengthHighByteChecked : Obligations.LengthHighByteChecked := by
  intro s x rest hreads hx
  refine ⟨half (byteLo s.block.lenReg) x, byteLo_half _ _, byteHi_half _ _, ?_⟩
  rw [hreads.blockTurn_of_byte nofun hx, rxByte]
  by_cases h7 : (half (byteLo s.block.lenReg) x).toNat < 7
  · rw [rxLenHi_of_lt _ h7, if_pos h7]
    rfl
  · rw [rxLenHi_of_le _ rfl (not_lt.1 h7), if_neg h7]
    rfl

/-- Settles O24: each header byte is taken by the rule of its state. -/
theorem headerBytesRead : Obligations.HeaderBytesRead := fun _ _ _ hx =>
  ⟨fun h => h.blockTurn_of_byte nofun hx, fun h => h.blockTurn_of_byte nofun hx,
    fun h => h.blockTurn_of_byte nofun hx⟩

/-! ## The checksum -/

/-- Settles O26: the byte is taken by the rule of CRC_LO. -/
theorem checksumLowByteRead : Obligations.ChecksumLowByteRead := fun _ _ _ hreads hx =>
  hreads.blockTurn_of_byte nofun hx

/-- In CRC_HI the bytes absorbed are the frame's covered bytes (R27, R118). -/
theorem Block.absorbed_of_crcHi {b : Block} (h : b.rxState = RxPhase.crcHi.code) :
    b.absorbed = some (frameHeader b.lenReg b.funcReg b.a1Reg b.a2Reg ++ b.payload) := by
  simp [Block.absorbed, h]

/-- The computed checksum is the CRC16 of the bytes absorbed (R27, R84). -/
theorem Block.ChecksumInv.crcFinal_eq_of_absorbed {p : CrcParams} {b : Block} {bytes : List Byte}
    (h : b.ChecksumInv p) (ha : b.absorbed = some bytes) : crcFinal p b.rxAcc = crc16 p bytes := by
  obtain ⟨running, -⟩ := h
  rw [crc16, running bytes ha]

/-- A checksum that does not match is logged with the computed one and ends the read without a packet (R113, R115). -/
theorem rxCrcHi_of_mismatch {p : CrcParams} {b : Block} {x : Byte} (h : crcFinal p b.rxAcc ≠ half b.crcRxLo x) :
    rxCrcHi p b x =
      (Block.log { b with lastCrcCalc := crcFinal p b.rxAcc, lastCrcRecv := half b.crcRxLo x }
        ⟨.checksumMismatch, crcFinal p b.rxAcc, half b.crcRxLo x⟩).finish .checksumMismatch := if_neg h

/-- Settles O27: the transmitted checksum is `half` of the two CRC bytes; the two outcomes of the comparison each end
the read by `finish`. -/
theorem checksumCompared : Obligations.ChecksumCompared := by
  intro s x rest hreads hx
  have ⟨_, _, _, hs⟩ := hreads
  have turn := hreads.blockTurn_of_byte nofun hx
  refine ⟨half s.block.crcRxLo x, rfl, fun hinv => hinv.crcFinal_eq_of_absorbed (Block.absorbed_of_crcHi hs),
    fun hmatch => ?_, fun hmismatch => ?_⟩
  · rw [turn, rxByte, rxCrcHi_of_match rfl hmatch]
    rfl
  · rw [turn, rxByte, rxCrcHi_of_mismatch hmismatch]
    rfl

/-! ## The end of the stream -/

/-- Settles O28: the item step finds the end mark, in every state but IDLE. -/
theorem endOfStreamTruncates : Obligations.EndOfStreamTruncates := by
  intro s ph hreads hph hx he
  have ⟨_, _, _, hs⟩ := hreads
  exact hreads.blockTurn_eq_rxItem.trans (rxItem_of_end hs hph hx he)

end Sys2Proof.Machine
end

section
/-!
SUPPORT. The payload decoder's operations: the answer of DECODE (R126), the decision table (R127), the rows that give an
event or none (R128 to R134), and the value a sink reads in `body_bits` (R135).
-/

namespace Sys2Proof.Machine

/-! ## DECODE -/

theorem execDecode_of_not_pktValid {s : State} (h : ¬ s.block.pktValid = true) :
    execDecode s = .next (s.answerEvent .none 0) := if_neg h

/-- Settles O32: DECODE asks `pkt_valid` and answers by the decision table or with NONE. -/
theorem decodeAnswers : Obligations.DecodeAnswers := by
  intro s _
  by_cases hv : s.block.pktValid = true
  · rw [if_pos hv]
    exact execDecode_of_pktValid hv
  · rw [if_neg hv]
    exact execDecode_of_not_pktValid hv

/-! ## The decision table -/

theorem decodeEvent_body (p0 p1 p2 p3 : Byte) :
    decodeEvent 4 3 6 [p0, p1, p2, p3] = (.bodyData, bodyBits p0 p1 p2 p3) := rfl

/-- Payload byte 0 stands at bit 0, so it is not shifted (R49, R132). -/
theorem bodyBits_eq_or (p0 p1 p2 p3 : Byte) :
    bodyBits p0 p1 p2 p3 =
      p0.setWidth 32 ||| (p1.setWidth 32 <<< 8) ||| (p2.setWidth 32 <<< 16) ||| (p3.setWidth 32 <<< 24) := by
  simp [bodyBits, field]

/-- Settles O33: the occupancy payloads are fixed inputs, and each other clause is one condition of the table. -/
theorem decisionTable : Obligations.DecisionTable := by
  refine ⟨by decide, by decide, by decide, fun p h0 h1 h2 => ?_, fun p0 p1 p2 p3 => ?_,
    fun p => decodeEvent_body_of_length_ne, fun a1 a2 p h5 h6 => ?_, fun f a1 a2 p h => decodeEvent_of_ne a1 a2 p h⟩
  · exact decodeEvent_environment_of_not_mem (not_mem_occupancyPayloads.2 ⟨h0, h1, h2⟩)
  · rw [decodeEvent_body, bodyBits_eq_or]
  · exact decodeEvent_reportOther p h5 h6

/-! ## The rows with an event -/

/-- Under the default parameters the table form of the CRC gives a frame's checksum (R87, R94). -/
theorem encodeFrame_modbus (f a1 a2 : Byte) (data : List Byte) :
    encodeFrame CrcParams.modbus f a1 a2 data =
      frameBytes (frameLength data.length) f a1 a2 data
        (crc16Table (frameHeader (frameLength data.length) f a1 a2 ++ data)) := by
  rw [encodeFrame, crc16Table_eq_crc16]

/-- Settles O34: each key and payload is its row's encoding, each row is one answer, and the frames' checksums are
evaluated in the table form. -/
theorem occupancyRowsAnswer : Obligations.OccupancyRowsAnswer := by
  intro s
  simp only [encodeFrame_modbus]
  exact ⟨⟨by decide, rfl, rfl, by decide⟩, ⟨by decide, rfl, rfl, by decide⟩, ⟨by decide, rfl, rfl, by decide⟩⟩

/-- `body_bits` holds the four payload bytes at their places (R49, R132). -/
theorem bodyBits_bytes (p0 p1 p2 p3 : Byte) :
    (bodyBits p0 p1 p2 p3).extractLsb' 0 8 = p0 ∧ (bodyBits p0 p1 p2 p3).extractLsb' 8 8 = p1 ∧
      (bodyBits p0 p1 p2 p3).extractLsb' 16 8 = p2 ∧ (bodyBits p0 p1 p2 p3).extractLsb' 24 8 = p3 := by
  simp [bodyBits, BitVec.extractLsb'_or, extractLsb'_field_same, extractLsb'_field_disjoint]

/-- Settles O35: the word answered is `bodyBits` of the payload. -/
theorem bodyDataRowAnswers : Obligations.BodyDataRowAnswers := by
  intro p0 p1 p2 p3 s
  obtain ⟨h0, h1, h2, h3⟩ := bodyBits_bytes p0 p1 p2 p3
  exact ⟨bodyBits p0 p1 p2 p3, h0, h1, h2, h3, rfl, rfl⟩

/-! ## The rows with no event -/

/-- Settles O36: each of the four rows is the answer NONE. -/
theorem silentRowsAnswerNone : Obligations.SilentRowsAnswerNone := by
  rintro f a1 a2 p s i (rfl | rfl | rfl | rfl) <;> rfl

/-- Settles O37: away from the handshake's own point each row is a packet with no event. -/
theorem setParamRowsDecodeToNone : Obligations.SetParamRowsDecodeToNone := fun a1 a2 p _ =>
  ⟨execSetParam_of_ne a1 a2 p, execSetParamAck_of_ne a1 a2 p⟩

/-! ## The value of `body_bits` -/

theorem bodyValue_of_normal {bits : Word} (h0 : (bits.extractLsb' 23 8).toNat ≠ 0)
    (h255 : (bits.extractLsb' 23 8).toNat ≠ 255) :
    bodyValue bits =
      .finite (bits.getLsbD 31) (2 ^ 23 + (bits.extractLsb' 0 23).toNat) ((bits.extractLsb' 23 8).toNat - 150) := by
  rw [bodyValue, if_neg h255, if_neg h0]

theorem bodyValue_of_subnormal {bits : Word} (h : (bits.extractLsb' 23 8).toNat = 0) :
    bodyValue bits = .finite (bits.getLsbD 31) (bits.extractLsb' 0 23).toNat (-149) := by
  rw [bodyValue, if_neg (by omega), if_pos h]

theorem bodyValue_of_special {bits : Word} (h : (bits.extractLsb' 23 8).toNat = 255) :
    bodyValue bits = if (bits.extractLsb' 0 23).toNat = 0 then .infinity (bits.getLsbD 31) else .nan := by
  rw [bodyValue, if_pos h]

/-- A mantissa counted in units of its last place is a mantissa over `2 ^ 23` at an exponent higher by 23. -/
theorem toRat_finite_sub (neg : Bool) (m : Nat) (e : Int) :
    (BodyValue.finite neg m (e - 23)).toRat = some ((if neg then -1 else 1) * 2 ^ e * ((m : Rat) / 2 ^ 23)) := by
  have scale : (2 : Rat) ^ (e - 23) = 2 ^ e / 2 ^ 23 := by rw [zpow_sub₀ two_ne_zero, zpow_ofNat]
  rw [BodyValue.toRat, scale, mul_assoc, mul_assoc, mul_div_left_comm]

/-- Settles O39: the model's integer mantissa is the formula's fraction times `2 ^ 23`. -/
theorem bodyValueFormula : Obligations.BodyValueFormula := by
  intro bits s e m
  refine ⟨fun ⟨h1, h254⟩ => ?_, fun h0 => ?_, fun h255 hm => ?_, fun h255 hm => ?_⟩
  · have exponent : (e : Int) - 150 = (e : Int) - 127 - 23 := by omega
    have fraction : ((2 ^ 23 + (bits.extractLsb' 0 23).toNat : Nat) : Rat) / 2 ^ 23 = 1 + m / 2 ^ 23 := by
      rw [Nat.cast_add, add_div, Nat.cast_pow, Nat.cast_ofNat, div_self (by norm_num)]
    rw [bodyValue_of_normal (Nat.one_le_iff_ne_zero.1 h1) (by omega), exponent, toRat_finite_sub, fraction]
  · rw [bodyValue_of_subnormal h0]
    exact toRat_finite_sub _ _ (-126)
  · rw [bodyValue_of_special h255, if_pos (Nat.cast_eq_zero.1 hm)]
  · rw [bodyValue_of_special h255, if_neg (Nat.cast_ne_zero.1 hm)]

end Sys2Proof.Machine
end

section
/-!
SUPPORT. The host's programs point by point (R75, R77, R139, R143): the command a point puts on the command port, the
wait for its response, and what each program makes of the response.
-/

namespace Sys2Proof.Machine

/-! ## A program's command and the wait for its response -/

theorem readRecord_eq : readRecord = ⟨0x00000003, []⟩ := by decide

theorem decodeRecord_eq : decodeRecord = ⟨0x00000004, []⟩ := by decide

/-- The block decodes ENCODE's record to ENCODE with the operands and the data it was built from (R67, R70). -/
theorem decodeCommand_encodeRecord (f a1 a2 : Byte) {data : List Byte} (h : data.length ≤ maxPayload) :
    decodeCommand (commandRecord 2 f a1 a2 data) = .ok (.encode f a1 a2 data) :=
  decode_command_eq_ok_iff.1 (decodeEncodeEveryInstr (.encode f a1 a2 data) (decide_eq_true h))

/-- The command a program puts on the command port at a point, and the point at which it waits for the response
(R77, R139, R143). The label `send` of R143 is not among them: it may end the program. -/
def ProgramPoint.issues : ProgramPoint → Option (Command × ProgramPoint)
  | .sendIssue f a1 a2 data => some (commandRecord 2 f a1 a2 data, .sendWait)
  | .eventReadIssue => some (readRecord, .eventReadWait)
  | .eventDecodeIssue => some (decodeRecord, .eventDecodeWait)
  | .handshakeRead r => some (readRecord, .handshakeWait r)
  | .loopReadIssue => some (readRecord, .loopReadWait)
  | .loopDecodeIssue => some (decodeRecord, .loopDecodeWait)
  | _ => none

theorem programTurn_of_issues {s : State} {c : Command} {pt : ProgramPoint} (h : s.host.point.issues = some (c, pt)) :
    programTurn s = .next { s with cmdPort := s.cmdPort ++ [c], host := { s.host with point := pt } } := by
  cases hp : s.host.point <;> rw [hp] at h <;> cases h <;> simp only [programTurn, hp] <;> rfl

/-- The points at which a program waits for a response. -/
def ProgramPoint.waits : ProgramPoint → Bool
  | .sendWait | .eventReadWait | .eventDecodeWait | .handshakeFrame _ | .handshakeWait _ | .loopReadWait
  | .loopDecodeWait => true
  | _ => false

theorem onResponse_of_none {s : State} (k : Response → State → Result) (h : s.ownResponse = none) :
    onResponse s k = .next s := by
  simp only [onResponse, h]

theorem onResponse_of_some {s s' : State} {r : Response} (k : Response → State → Result)
    (h : s.ownResponse = some (r, s')) : onResponse s k = k r s' := by
  simp only [onResponse, h]

/-- A program whose response is not there makes no move (R77, R139, R143; assumption 4). -/
theorem programTurn_of_waits {s : State} (hw : s.host.point.waits = true) (h : s.ownResponse = none) :
    programTurn s = .next s := by
  cases hp : s.host.point <;> rw [hp] at hw <;> cases hw <;> simp only [programTurn, hp, onResponse_of_none _ h]

/-- The host has read the response port, and has done nothing else (assumption 12). -/
theorem State.ownResponse_readResponses {s s' : State} {r : Response} (h : s.ownResponse = some (r, s')) :
    s' = s.readResponses := by
  obtain ⟨-, -, -, h'⟩ := State.ownResponse_some h
  exact h'

/-! ## SET_PARAM and SET_PARAM_ACK at the handshake's own points -/

theorem execSetParam_of_send {s : State} {r : SensorReg} (a1 a2 : Byte) (v : List Byte)
    (hp : s.host.point = .handshakeSend r) :
    execSetParam a1 a2 v s = .next (s.issue (commandRecord 2 2 a1 a2 v) (.handshakeFrame r)) := by
  simp only [execSetParam, hp]

theorem execSetParamAck_of_wait {s : State} {r : SensorReg} (a1 a2 : Byte) (p : List Byte)
    (hp : s.host.point = .handshakeWait r) :
    execSetParamAck a1 a2 p s =
      if a1 = s.config.hsAddr1 ∧ a2 = r.address2 then .next (s.acknowledged r p) else .next (s.notAcknowledged r) := by
  simp only [execSetParamAck, hp]

theorem State.acknowledged_of_eq {s : State} {r : SensorReg} {v : List Byte} (h : s.handshakeBytes r = some v) :
    s.acknowledged r v = s.registerConfirmed r := if_pos h

theorem State.acknowledged_of_ne {s : State} {r : SensorReg} {v p : List Byte} (h : s.handshakeBytes r = some v)
    (hne : p ≠ v) : s.acknowledged r p = s.goTo (.handshakeSend r) :=
  if_neg fun h' => hne (Option.some.inj (h'.symm.trans h))

theorem State.notAcknowledged_eq (s : State) (r : SensorReg) :
    s.notAcknowledged r =
      s.goTo (if s.config.hsResendOn = .wrongValueAck then .handshakeRead r else .handshakeSend r) := by
  unfold State.notAcknowledged
  cases s.config.hsResendOn <;> rfl

theorem State.endInitialization_ok (s : State) :
    s.endInitialization .ok =
      { s with
        host :=
          { s.host with
            initResult := some .ok
            point := if s.host.thenLoop = true then .loopReadIssue else .stopped } } := by
  simp [State.endInitialization, State.setHost]

/-- Whatever is to follow, a failed run_initialization stops the program (R149). -/
theorem State.endInitialization_of_ne_ok (s : State) {res : InitResult} (h : res ≠ .ok) :
    s.endInitialization res = { s with host := { s.host with initResult := some res, point := .stopped } } := by
  simp [State.endInitialization, State.setHost, h]

theorem isAckFor_iff {c : Config} {q : Packet} {r : SensorReg} :
    isAckFor c q r = true ↔ q.function = 3 ∧ q.address1 = c.hsAddr1 ∧ q.address2 = r.address2 := by
  simp [isAckFor, and_assoc]

/-! ## What a program makes of its response -/

theorem handshakeSend_of_none {s : State} {r : SensorReg} (h : s.handshakeBytes r = none) :
    handshakeSend r s = .refused .handshakeValue := by
  simp only [handshakeSend, h]

theorem handshakeSend_of_some {s : State} {r : SensorReg} {v : List Byte} (h : s.handshakeBytes r = some v) :
    handshakeSend r s =
      if s.config.hsMaxSends = some s.host.sends then .next (s.endInitialization .timeout)
      else exec (.setParam s.config.hsAddr1 r.address2 v) s := by
  simp only [handshakeSend, h]

theorem handshakeRead_of_streamFailure {st : Status} (r : SensorReg) (p : Option Packet) (s : State)
    (h : st = .truncated ∨ st = .cancelled) :
    handshakeRead r (.read st p) s = .next (s.endInitialization .streamFailure) := by
  rcases h with rfl | rfl <;> rfl

theorem handshakeRead_of_isAckFor {r : SensorReg} {q : Packet} {s : State} (h : isAckFor s.config q r = true) :
    handshakeRead r (.read .packetOk (some q)) s = exec (.setParamAck q.address1 q.address2 q.payload) s := if_pos h

/-- Any other answer to the handshake's READ is discarded (R146, R148). -/
theorem handshakeRead_of_discarded {st : Status} {r : SensorReg} {p : Option Packet} {s : State}
    (hst : ¬ (st = .truncated ∨ st = .cancelled))
    (hack : ¬ ∃ q, st = .packetOk ∧ p = some q ∧ isAckFor s.config q r = true) :
    handshakeRead r (.read st p) s = .next (s.notAcknowledged r) := by
  cases st
  case truncated | cancelled => simp at hst
  case packetOk =>
    cases p with
    | none => rfl
    | some q => exact if_neg fun h => hack ⟨q, rfl, rfl, h⟩
  all_goals rfl

theorem loopRead_read (st : Status) (p : Option Packet) (s : State) :
    loopRead (.read st p) s =
      .next (s.goTo
        (if st = .truncated ∨ st = .cancelled then .stopped
          else if st = .packetOk then .loopDecodeIssue else .loopReadIssue)) := by
  cases st <;> rfl

theorem loopDecode_decoded (ev : EventCode) (bits : Word) (s : State) :
    loopDecode (.decoded ev bits) s = .next
      { s with
        host :=
          { s.host with
            sink := if ev = .none then s.host.sink else s.host.sink ++ [⟨ev, bits⟩]
            point := .loopReadIssue } } := by
  cases ev <;> rfl

/-! ## The statements point by point -/

/-- Settles O44: at both points ENCODE's record goes on the port, and the frame answered goes to the TX side. -/
theorem setParamIssuesEncode : Obligations.SetParamIssuesEncode := by
  refine ⟨fun a1 a2 v r s hp hlen => ?_, fun bytes r s s' hp ho => ?_, fun f a1 a2 data s hp hlen => ?_,
    fun bytes s s' hp ho => ?_, fun r s hp ho => ?_⟩
  · exact ⟨_, decodeCommand_encodeRecord 2 a1 a2 hlen, execSetParam_of_send a1 a2 v hp⟩
  · simp only [programTurn, hp, onResponse_of_some _ ho]
    rfl
  · exact ⟨_, decodeCommand_encodeRecord f a1 a2 hlen, programTurn_of_issues (congrArg ProgramPoint.issues hp)⟩
  · simp only [programTurn, hp, onResponse_of_some _ ho]
    rfl
  · exact programTurn_of_waits (by rcases hp with hp | hp <;> rw [hp] <;> rfl) ho

/-- Settles O45: for the register and the sent value the register is confirmed, with another value the command is sent
again, and for another register it was no acknowledgment. -/
theorem ackMovesHandshake : Obligations.AckMovesHandshake := by
  intro a1 a2 p v r s hp hv
  have hexec : exec (.setParamAck a1 a2 p) s = _ := execSetParamAck_of_wait a1 a2 p hp
  rw [hexec]
  refine ⟨fun h1 h2 hpv hr => ?_, fun h1 h2 hpv hr => ?_, fun h1 h2 hpv => ?_, fun h => ?_⟩
  · rw [if_pos ⟨h1, h2⟩, hpv, State.acknowledged_of_eq hv, hr]
    rfl
  · rw [if_pos ⟨h1, h2⟩, hpv, State.acknowledged_of_eq hv, hr]
    exact congrArg _ s.endInitialization_ok
  · rw [if_pos ⟨h1, h2⟩, State.acknowledged_of_ne hv hpv]
    rfl
  · rw [if_neg h, State.notAcknowledged_eq]
    rfl

/-- Settles O46: the value, and then the sends already made, decide what the label `send` does. -/
theorem handshakeSendBounded : Obligations.HandshakeSendBounded := by
  intro s r hp
  have hturn : programTurn s = handshakeSend r s := by simp only [programTurn, hp]
  refine ⟨fun hv => hturn.trans (handshakeSend_of_none hv), fun v hv => ⟨fun hmax => ?_, fun hmax => ?_⟩⟩
  · rw [hturn, handshakeSend_of_some hv, if_pos hmax, State.endInitialization_of_ne_ok s (res := .timeout) nofun]
  · rw [hturn, handshakeSend_of_some hv, if_neg hmax]

/-- Settles O47: each status the wait can see, with a packet that is an acknowledgment or is none, is one case of
`handshakeRead`. -/
theorem handshakeReadOutcomes : Obligations.HandshakeReadOutcomes := by
  refine ⟨fun s r hp => ?_, fun s r hp ho => programTurn_of_waits (by rw [hp]; rfl) ho, fun s s' r st p hp ho => ?_⟩
  · rw [← readRecord_eq]
    exact programTurn_of_issues (congrArg ProgramPoint.issues hp)
  have hturn : programTurn s = handshakeRead r (.read st p) s' := by
    simp only [programTurn, hp, onResponse_of_some _ ho]
  have hconfig : s'.config = s.config := by rw [State.ownResponse_readResponses ho, State.readResponses_config]
  rw [hturn, ← hconfig]
  refine ⟨fun hst => ?_, fun q hst hq hf h1 h2 => ?_, fun h => ?_⟩
  · rw [handshakeRead_of_streamFailure r p s' hst, State.endInitialization_of_ne_ok s' (res := .streamFailure) nofun]
  · rw [hst, hq, handshakeRead_of_isAckFor (isAckFor_iff.2 ⟨hf, h1, h2⟩)]
  · rw [handshakeRead_of_discarded, State.notAcknowledged_eq]
    · rfl
    · rcases h with rfl | rfl | ⟨q, rfl, -⟩ <;> simp
    · rintro ⟨q, rfl, rfl, hack⟩
      rcases h with h | h | ⟨q', -, hq, hno⟩
      · cases h
      · cases h
      · cases hq
        exact hno (isAckFor_iff.1 hack)

/-- Settles O50: `loopDecode` delivers an event once and goes on to the read; READ_EVENT's wait ends its program. -/
theorem loopDeliversEvent : Obligations.LoopDeliversEvent := by
  refine ⟨fun s => ?_, fun s s' ev bits ho => ⟨fun hp => ?_, fun hp => ⟨?_, ?_⟩⟩⟩
  · rw [← decodeRecord_eq]
    exact ⟨fun hp => programTurn_of_issues (congrArg ProgramPoint.issues hp),
      fun hp => programTurn_of_issues (congrArg ProgramPoint.issues hp),
      fun hp ho => programTurn_of_waits (by rcases hp with hp | hp <;> rw [hp] <;> rfl) ho⟩
  · simp only [programTurn, hp, onResponse_of_some _ ho]
    exact loopDecode_decoded ev bits s'
  · simp only [programTurn, hp, onResponse_of_some _ ho]
    rfl
  · rw [State.ownResponse_readResponses ho, State.readResponses_host]

end Sys2Proof.Machine
end

section
/-!
SUPPORT. What a step of the machine can do to the host's course: its sink, and its place in the gear-threshold handshake
and in run_loop (R139, R142, W6). Said once for every agent's move, it gives the three statements over every step.
-/

namespace Sys2Proof.Machine

/-! ## The host's course -/

/-- The sink stays, the gear-threshold handshake is not entered, and run_loop is not left. -/
structure HostSide.KeepsCourse (h h' : HostSide) : Prop where
  sink : h'.sink = h.sink
  gear : h'.point.inGearHandshake = true → h.point.inGearHandshake = true
  loop : h.point.inLoop = true → h'.point.inLoop = true

/-- What a program's move makes of the host's course; `last` is the last record on the response port, which the program
takes for its own response (assumption 12). -/
inductive HostSide.Moves (c : Config) (last : Option Response) (h h' : HostSide) : Prop
  | keeps (k : h.KeepsCourse h')
  /-- The room type's handshake returns OK (R142, R144). -/
  | roomTypeConfirmed (q : Packet) (point : h.point = .handshakeWait .roomType)
      (answer : last = some (.read .packetOk (some q))) (ack : isAckFor c q .roomType = true)
      (value : encodeValue c.hsValueEnc h.sensor.roomType = some q.payload) (sink : h'.sink = h.sink)
  /-- run_loop ends (R139). -/
  | loopEnds (st : Status) (p : Option Packet) (point : h.point = .loopReadWait)
      (answer : last = some (.read st p)) (status : st = .truncated ∨ st = .cancelled)
      (stops : h'.point = .stopped) (sink : h'.sink = h.sink)
  /-- run_loop delivers what its DECODE answered (R139, R141). -/
  | delivers (ev : EventCode) (bits : Word) (point : h.point = .loopDecodeWait)
      (answer : last = some (.decoded ev bits)) (event : ev ≠ .none) (goesOn : h'.point = .loopReadIssue)
      (sink : h'.sink = h.sink ++ [⟨ev, bits⟩])

theorem HostSide.KeepsCourse.refl (h : HostSide) : h.KeepsCourse h := ⟨rfl, id, id⟩

theorem HostSide.KeepsCourse.of_point {h h' : HostSide} {pt pt' : ProgramPoint} (hp : h.point = pt)
    (hp' : h'.point = pt') (hs : h'.sink = h.sink) (hg : pt'.inGearHandshake = pt.inGearHandshake)
    (hl : pt'.inLoop = pt.inLoop) : h.KeepsCourse h' := by
  subst hp hp'
  exact ⟨hs, fun h => hg ▸ h, fun h => hl ▸ h⟩

/-- run_initialization returns outside the gear-threshold handshake, and it is no part of run_loop (R149). -/
theorem State.endInitialization_keepsCourse {s : State} (res : InitResult) (hl : s.host.point.inLoop = false) :
    s.host.KeepsCourse (s.endInitialization res).host := by
  refine ⟨rfl, fun hg => ?_, fun h => absurd (hl.symm.trans h) nofun⟩
  simp only [State.endInitialization, State.setHost_host] at hg
  split at hg <;> cases hg

theorem State.startProgram_keepsCourse {s : State} (p : Program) (hp : s.host.point = .stopped) :
    s.host.KeepsCourse (s.startProgram p).host := by
  cases p <;> exact ⟨rfl, nofun, by rw [hp]; nofun⟩

/-- What is true of a host that has read the response port is true of it before (assumption 12). -/
theorem HostSide.Moves.of_readResponses {s : State} {r : Response} {h' : HostSide}
    (ho : s.ownResponse = some (r, s.readResponses))
    (h : HostSide.Moves s.config (some r) s.readResponses.host h') :
    HostSide.Moves s.config s.block.respPort.getLast? s.host h' := by
  obtain ⟨-, -, hlast, -⟩ := State.ownResponse_some ho
  rw [hlast]
  cases h with
  | keeps k => exact .keeps ⟨k.sink, k.gear, k.loop⟩
  | roomTypeConfirmed q point answer ack value sink => exact .roomTypeConfirmed q point answer ack value sink
  | loopEnds st p point answer status stops sink => exact .loopEnds st p point answer status stops sink
  | delivers ev bits point answer event goesOn sink => exact .delivers ev bits point answer event goesOn sink

/-! ## The moves of a program -/

/-- A program that puts its command on the port stays in its handshake and in its loop. -/
theorem ProgramPoint.issues_course {pt pt' : ProgramPoint} {c : Command} (h : pt.issues = some (c, pt')) :
    pt'.inGearHandshake = pt.inGearHandshake ∧ pt'.inLoop = pt.inLoop := by
  cases pt <;> cases h
  case handshakeRead r => cases r <;> exact ⟨rfl, rfl⟩
  all_goals exact ⟨rfl, rfl⟩

theorem programTurn_keepsCourse_of_issues {s t : State} {c : Command} {pt : ProgramPoint}
    (hi : s.host.point.issues = some (c, pt)) (h : programTurn s = .next t) : s.host.KeepsCourse t.host := by
  obtain ⟨hg, hl⟩ := ProgramPoint.issues_course hi
  rw [programTurn_of_issues hi] at h
  cases h
  exact .of_point rfl rfl rfl hg hl

theorem handshakeSend_keepsCourse {s t : State} {r : SensorReg} (hp : s.host.point = .handshakeSend r)
    (h : handshakeSend r s = .next t) : s.host.KeepsCourse t.host := by
  cases hv : s.handshakeBytes r with
  | none => rw [handshakeSend_of_none hv] at h; cases h
  | some v =>
    rw [handshakeSend_of_some hv] at h
    split at h
    · cases h
      exact s.endInitialization_keepsCourse _ (by rw [hp]; rfl)
    · rw [exec, execSetParam_of_send _ _ _ hp] at h
      cases h
      exact .of_point hp rfl rfl (by cases r <;> rfl) rfl

/-- A read that was no acknowledgment leaves the program in the register's handshake (R145, R146). -/
theorem State.notAcknowledged_keepsCourse {s : State} {r : SensorReg} (hp : s.host.point = .handshakeWait r) :
    s.host.KeepsCourse (s.notAcknowledged r).host := by
  rw [State.notAcknowledged_eq]
  split <;> exact .of_point hp rfl rfl (by cases r <;> rfl) rfl

/-- An acknowledgment leaves the register's handshake only with the sent value, and only the room type's goes on to the
gear threshold (R142 to R145). -/
theorem State.acknowledged_moves {s : State} {r : SensorReg} {q : Packet} (hp : s.host.point = .handshakeWait r)
    (hack : isAckFor s.config q r = true) :
    HostSide.Moves s.config (some (.read .packetOk (some q))) s.host (s.acknowledged r q.payload).host := by
  by_cases hv : s.handshakeBytes r = some q.payload
  · rw [State.acknowledged_of_eq hv]
    cases r with
    | roomType => exact .roomTypeConfirmed q hp rfl hack hv rfl
    | gearThreshold => exact .keeps (s.endInitialization_keepsCourse _ (by rw [hp]; rfl))
  · rw [State.acknowledged, if_neg hv]
    exact .keeps (.of_point hp rfl rfl (by cases r <;> rfl) rfl)

theorem handshakeRead_moves {s t : State} {r : SensorReg} {resp : Response} (hp : s.host.point = .handshakeWait r)
    (h : handshakeRead r resp s = .next t) : HostSide.Moves s.config (some resp) s.host t.host := by
  cases resp with
  | read st p =>
    by_cases hst : st = .truncated ∨ st = .cancelled
    · rw [handshakeRead_of_streamFailure r p s hst] at h
      cases h
      exact .keeps (s.endInitialization_keepsCourse _ (by rw [hp]; rfl))
    by_cases hack : ∃ q, st = .packetOk ∧ p = some q ∧ isAckFor s.config q r = true
    · obtain ⟨q, rfl, rfl, hack⟩ := hack
      obtain ⟨-, h1, h2⟩ := isAckFor_iff.1 hack
      rw [handshakeRead_of_isAckFor hack, exec, execSetParamAck_of_wait _ _ _ hp, if_pos ⟨h1, h2⟩] at h
      cases h
      exact State.acknowledged_moves hp hack
    · rw [handshakeRead_of_discarded hst hack] at h
      cases h
      exact .keeps (State.notAcknowledged_keepsCourse hp)
  | crc | frame | decoded => cases h; exact .keeps (.refl _)

theorem loopRead_moves {s t : State} {resp : Response} (hp : s.host.point = .loopReadWait)
    (h : loopRead resp s = .next t) : HostSide.Moves s.config (some resp) s.host t.host := by
  cases resp with
  | read st p =>
    rw [loopRead_read] at h
    cases h
    by_cases hst : st = .truncated ∨ st = .cancelled
    · exact .loopEnds st p hp rfl hst (if_pos hst) rfl
    · rw [if_neg hst]
      split <;> exact .keeps (.of_point hp rfl rfl rfl rfl)
  | crc | frame | decoded => cases h; exact .keeps (.refl _)

theorem loopDecode_moves {s t : State} {resp : Response} (hp : s.host.point = .loopDecodeWait)
    (h : loopDecode resp s = .next t) : HostSide.Moves s.config (some resp) s.host t.host := by
  cases resp with
  | decoded ev bits =>
    rw [loopDecode_decoded] at h
    cases h
    by_cases hev : ev = .none
    · exact .keeps (.of_point hp rfl (if_pos hev) rfl rfl)
    · exact .delivers ev bits hp rfl hev rfl (if_neg hev)
  | crc | frame | read => cases h; exact .keeps (.refl _)

/-- Everything a program's move can make of the host's course. -/
theorem programTurn_moves {s t : State} (h : programTurn s = .next t) :
    HostSide.Moves s.config s.block.respPort.getLast? s.host t.host := by
  cases hp : s.host.point
  case sendIssue | eventReadIssue | eventDecodeIssue | handshakeRead | loopReadIssue | loopDecodeIssue =>
    exact .keeps (programTurn_keepsCourse_of_issues (congrArg ProgramPoint.issues hp) h)
  all_goals simp only [programTurn, hp] at h
  case stopped => cases h; exact .keeps (.refl _)
  case handshakeSend => exact .keeps (handshakeSend_keepsCourse hp h)
  all_goals
    obtain rfl | ⟨resp, ho, hk⟩ := onResponse_cases h
    · exact .keeps (.refl _)
    refine .of_readResponses ho ?_
  case handshakeWait => exact handshakeRead_moves (s := s.readResponses) hp hk
  case loopReadWait => exact loopRead_moves (s := s.readResponses) hp hk
  case loopDecodeWait => exact loopDecode_moves (s := s.readResponses) hp hk
  case handshakeFrame r =>
    split at hk <;> cases hk
    · exact .keeps (.of_point hp rfl rfl (by cases r <;> rfl) rfl)
    · exact .keeps (.refl _)
  case eventReadWait =>
    split at hk <;> cases hk
    · exact .keeps (.of_point hp rfl rfl (by split <;> rfl) (by split <;> rfl))
    · exact .keeps (.refl _)
  case sendWait | eventDecodeWait =>
    split at hk <;> cases hk
    · exact .keeps (.of_point hp rfl rfl rfl rfl)
    · exact .keeps (.refl _)

/-! ## The moves of the machine -/

/-- The host's own SINK delivers its event, unless it is NONE; every other turn of a free host keeps its course. -/
theorem agentTurn_free_course {s t : State} {turn : Turn} (hp : s.host.point = .stopped)
    (hf : turn.needsFreeHost = true) (h : agentTurn turn s = .next t) :
    s.host.KeepsCourse t.host ∨
      ∃ e, turn = .sink e ∧ e.code ≠ .none ∧ t.host = { s.host with sink := s.host.sink ++ [e] } := by
  cases turn <;> cases hf <;> rw [agentTurn, State.whenFree_of_stopped hp] at h <;> cases h
  case command | write => exact .inl ⟨rfl, id, id⟩
  case takeResponse => unfold State.takeResponse; split <;> exact .inl ⟨rfl, id, id⟩
  case start p => exact .inl (State.startProgram_keepsCourse p hp)
  case sink e =>
    rw [State.sinkEvent_eq]
    by_cases he : e.code = .none
    · exact .inl ⟨if_pos he, id, id⟩
    · exact .inr ⟨e, rfl, he, by rw [if_neg he]⟩

/-- Everything a step of the machine can make of the host's course: what its program's move can, or the host's own SINK
while no program runs (R137, R138). -/
theorem step_host_moves {s t : State} (h : step s = .next t) :
    HostSide.Moves s.config s.block.respPort.getLast? s.host t.host ∨
      ∃ e rest, s.turns = .sink e :: rest ∧ s.host.point = .stopped ∧ e.code ≠ .none ∧
        t.host = { s.host with sink := s.host.sink ++ [e] } := by
  obtain ⟨ts, hprog⟩ | hseen | ⟨hp, turn, rest, hturn, hf, hfree⟩ := step_host_cases h
  · exact .inl (programTurn_moves (s := { s with turns := ts }) hprog)
  · rw [hseen]
    exact .inl (.keeps ⟨rfl, id, id⟩)
  · rcases agentTurn_free_course (s := { s with turns := rest }) hp hf hfree with hk | ⟨e, rfl, he, ht⟩
    · exact .inl (.keeps hk)
    · exact .inr ⟨e, rest, hturn, hp, he, ht⟩

/-! ## The statements over every step -/

/-- Settles O48: of all moves only the room type's OK goes on to the gear threshold. -/
theorem gearOnlyAfterRoomAck : Obligations.GearOnlyAfterRoomAck := by
  intro s t h hgear hout
  have outside {pt : ProgramPoint} (hp : t.host.point = pt) (hpt : pt.inGearHandshake = false) : False :=
    absurd hgear (by rw [hp, hpt]; nofun)
  obtain hm | ⟨e, rest, -, hp, -, ht⟩ := step_host_moves h
  · cases hm with
    | keeps k => exact absurd (k.gear hgear) (by simp [hout])
    | roomTypeConfirmed q point answer ack value =>
      obtain ⟨hf, h1, h2⟩ := isAckFor_iff.1 ack
      exact ⟨q, point, answer, hf, h1, h2, value⟩
    | loopEnds _ _ _ _ _ stops => exact (outside stops rfl).elim
    | delivers _ _ _ _ _ goesOn => exact (outside goesOn rfl).elim
  · exact (outside (by rw [ht]) (by rw [hp]; rfl)).elim

/-- Settles O49: the reads are `loopRead` and READ_EVENT's own, and of all moves only run_loop's end leaves run_loop. -/
theorem loopReadOutcomes : Obligations.LoopReadOutcomes := by
  refine ⟨fun s => ?_, fun s s' st p ho => ⟨fun hp => ?_, fun hp => ?_⟩, fun s t h hin hout => ?_⟩
  · rw [← readRecord_eq]
    exact ⟨fun hp => programTurn_of_issues (congrArg ProgramPoint.issues hp),
      fun hp => programTurn_of_issues (congrArg ProgramPoint.issues hp),
      fun hp ho => programTurn_of_waits (by rcases hp with hp | hp <;> rw [hp] <;> rfl) ho⟩
  · simp only [programTurn, hp, onResponse_of_some _ ho]
    exact loopRead_read st p s'
  · simp only [programTurn, hp, onResponse_of_some _ ho]
    rfl
  · have outside {pt : ProgramPoint} (hp : s.host.point = pt) (hpt : pt.inLoop = false) : False :=
      absurd hin (by rw [hp, hpt]; nofun)
    obtain hm | ⟨e, rest, -, hp, -, -⟩ := step_host_moves h
    · cases hm with
      | keeps k => exact absurd (k.loop hin) (by simp [hout])
      | roomTypeConfirmed _ point => exact (outside point rfl).elim
      | loopEnds st p point answer status stops => exact ⟨point, stops, st, p, answer, status⟩
      | delivers _ _ _ _ _ goesOn => exact absurd hout (by rw [goesOn]; nofun)
    · exact (outside hp rfl).elim

/-- Settles O51: of all moves only run_loop's delivery and the host's own SINK change the sink. -/
theorem sinkGetsOnlyDecodedEvents : Obligations.SinkGetsOnlyDecodedEvents := by
  intro s t h hne
  obtain hm | ⟨e, rest, hturn, hp, he, ht⟩ := step_host_moves h
  · cases hm with
    | keeps k => exact absurd k.sink hne
    | roomTypeConfirmed _ _ _ _ _ sink => exact absurd sink hne
    | loopEnds _ _ _ _ _ _ sink => exact absurd sink hne
    | delivers ev bits point answer event _ sink => exact .inl ⟨ev, bits, point, answer, event, sink⟩
  · exact .inr ⟨e, rest, hturn, hp, he, by rw [ht]⟩

end Sys2Proof.Machine
end

section
/-!
The reset instruction RST (R174, R175).
-/

namespace Sys2Proof.Machine

/-- The one update RST makes is of the block: stream, command port, parameters and host's side stay (R174, R175). -/
theorem exec_rst (s : State) : exec .rst s = .next (s.setBlock (Block.reset s.config.crc)) := rfl

/-- Settles O40: the block RST leaves is `Block.reset`, with `rx_acc` from the instance's own CRC_INIT. -/
theorem rstResetsBlock : Obligations.RstResetsBlock := exec_rst

end Sys2Proof.Machine
end
